-- ==== Sys2Proof/Word.lean ====
section
/-!
DEFINITION. The word types of the machine: what the spec gives a width in bits is a bit vector of that width, a register
index is a number below 16 (spec/00_scope.md R5, R6; spec/30_encoding.md R61).
-/
namespace Sys2Proof

/-- An 8-bit value: a general register, a memory byte, a timer (REG_WIDTH, TIMER_WIDTH of R5). -/
abbrev Byte := BitVec 8

/-- A 16-bit value: an opcode, PC, I (PC_WIDTH, I_WIDTH of R5). -/
abbrev Word := BitVec 16

/-- A 4-bit field of an opcode, or a key index (R9 "Nibble", R21). -/
abbrev Nibble := BitVec 4

/-- A 12-bit literal `nnn` (R61). -/
abbrev Lit12 := BitVec 12

/-- The index of one of the sixteen registers `V0..VF` (R11, R63: "always name a real register"). -/
abbrev Reg := Fin 16

end Sys2Proof
end

