-- ==== Sys2Proof/Syntax.lean ====
section
/-!
DEFINITION. The instructions as syntax: one constructor per row of spec/opcode_table.json, in the table's order
(spec/30_encoding.md R64, R65). Operands are the fields of R61 that the row's pattern names.
-/
namespace Sys2Proof

/-- One constructor per row of the opcode table: 35 instructions and the five reserved rows, which hold the words of their
family that no instruction row matches (R67), by their low 12 bits. -/
inductive Instr where
  /-- `00E0` clear screen (R160) -/
  | cls
  /-- `00EE` return (R100) -/
  | ret
  /-- `0NNN` jump to the opcode value (R101) -/
  | sys (nnn : Lit12)
  /-- `1NNN` jump (R102) -/
  | jp (nnn : Lit12)
  /-- `2NNN` call (R103) -/
  | call (nnn : Lit12)
  /-- `3xkk` skip if equal to literal (R105) -/
  | seImm (x : Reg) (kk : Byte)
  /-- `4xkk` skip if not equal to literal (R106) -/
  | sneImm (x : Reg) (kk : Byte)
  /-- `5xy0` skip if registers equal (R107) -/
  | seReg (x y : Reg)
  /-- `6xkk` load immediate (R122) -/
  | ldImm (x : Reg) (kk : Byte)
  /-- `7xkk` add immediate (R123) -/
  | addImm (x : Reg) (kk : Byte)
  /-- `8xy0` assign (R124) -/
  | ldReg (x y : Reg)
  /-- `8xy1` OR (R125) -/
  | orReg (x y : Reg)
  /-- `8xy2` AND (R126) -/
  | andReg (x y : Reg)
  /-- `8xy3` XOR (R127) -/
  | xorReg (x y : Reg)
  /-- `8xy4` add with carry out (R128) -/
  | addReg (x y : Reg)
  /-- `8xy5` subtract (R129) -/
  | subReg (x y : Reg)
  /-- `8xy6` shift right; `y` is decoded and ignored (R130, R70) -/
  | shr (x y : Reg)
  /-- `8xy7` reverse subtract (R131) -/
  | subnReg (x y : Reg)
  /-- `8xyE` shift left; `y` is decoded and ignored (R132, R70) -/
  | shl (x y : Reg)
  /-- `9xy0` skip if registers differ (R108) -/
  | sneReg (x y : Reg)
  /-- `ANNN` set I (R140) -/
  | ldI (nnn : Lit12)
  /-- `BNNN` jump with offset V0 (R104) -/
  | jpV0 (nnn : Lit12)
  /-- `Cxkk` random (R133) -/
  | rnd (x : Reg) (kk : Byte)
  /-- `DXYN` draw sprite (R161) -/
  | drw (x y : Reg) (n : Nibble)
  /-- `Ex9E` skip if key pressed (R170) -/
  | skp (x : Reg)
  /-- `ExA1` skip if key not pressed (R171) -/
  | sknp (x : Reg)
  /-- `Fx07` read delay timer (R173) -/
  | ldVxDt (x : Reg)
  /-- `Fx0A` wait for key (R176) -/
  | ldVxK (x : Reg)
  /-- `Fx15` write delay timer (R174) -/
  | ldDtVx (x : Reg)
  /-- `Fx18` write sound timer (R175) -/
  | ldStVx (x : Reg)
  /-- `Fx1E` add to I (R141) -/
  | addI (x : Reg)
  /-- `Fx29` font glyph address (R142) -/
  | ldF (x : Reg)
  /-- `Fx33` BCD store (R143) -/
  | ldB (x : Reg)
  /-- `Fx55` block store (R144) -/
  | storeRegs (x : Reg)
  /-- `Fx65` block load (R145) -/
  | loadRegs (x : Reg)
  /-- an unrecognized word of family 5, its low 12 bits (R67, R68) -/
  | reserved5 (low : Lit12)
  /-- an unrecognized word of family 8, its low 12 bits (R67, R68) -/
  | reserved8 (low : Lit12)
  /-- an unrecognized word of family 9, its low 12 bits (R67, R68) -/
  | reserved9 (low : Lit12)
  /-- an unrecognized word of family E, its low 12 bits (R67, R68) -/
  | reservedE (low : Lit12)
  /-- an unrecognized word of family F, its low 12 bits (R67, R68) -/
  | reservedF (low : Lit12)
deriving DecidableEq, Repr

end Sys2Proof
end

