-- ==== Sys2Proof/WellFormed.lean ====
section
/-!
DEFINITION. Which terms of `Instr` stand for words of the opcode map. Register numbers and literals are bounded by their
types; what is left to check is that a fallback row (`SYS`, the five reserved rows) does not name a word that an earlier row
of the table matches (spec/30_encoding.md R64, R66, R67).
-/
namespace Sys2Proof

/-- The low nibble of a word's low 12 bits: the sub-opcode of families 5, 8 and 9 (R65). -/
def subNibble (low : Lit12) : Nat := low.toNat % 16

/-- The low byte of a word's low 12 bits: the sub-opcode of families E and F (R65). -/
def subByte (low : Lit12) : Nat := low.toNat % 256

/-- The low bytes that select an instruction of family F (R65). -/
def familyFSubs : List Nat := [0x07, 0x0A, 0x15, 0x18, 0x1E, 0x29, 0x33, 0x55, 0x65]

/-- A well-formed instruction: the word it stands for selects its own row of the table (R66, R67). -/
def Instr.wellFormed : Instr → Bool
  | .sys nnn => nnn != 0x0E0#12 && nnn != 0x0EE#12
  | .reserved5 low => subNibble low != 0
  | .reserved8 low => decide (7 < subNibble low) && subNibble low != 0xE
  | .reserved9 low => subNibble low != 0
  | .reservedE low => subByte low != 0x9E && subByte low != 0xA1
  | .reservedF low => !(familyFSubs.contains (subByte low))
  | .cls | .ret | .jp _ | .call _ | .seImm _ _ | .sneImm _ _ | .seReg _ _ | .ldImm _ _ | .addImm _ _ | .ldReg _ _
  | .orReg _ _ | .andReg _ _ | .xorReg _ _ | .addReg _ _ | .subReg _ _ | .shr _ _ | .subnReg _ _ | .shl _ _
  | .sneReg _ _ | .ldI _ | .jpV0 _ | .rnd _ _ | .drw _ _ _ | .skp _ | .sknp _ | .ldVxDt _ | .ldVxK _ | .ldDtVx _
  | .ldStVx _ | .addI _ | .ldF _ | .ldB _ | .storeRegs _ | .loadRegs _ => true

end Sys2Proof
end

