-- ==== Sys2Proof/Decode.lean ====
section
/-!
DEFINITION. From bits to instructions and back (spec/30_encoding.md). The decoder is the two-level dispatch of R65; it is total
on words and names why it gives no instruction. The encoder writes the same table backwards (R74).
-/
namespace Sys2Proof

/-- The fields of R61, all extracted from every opcode: the family (top nibble). -/
def fieldT (op : Word) : Nibble := op.extractLsb' 12 4

/-- `x` = bits 8 to 11 (R61). -/
def fieldX (op : Word) : Reg := (op.extractLsb' 8 4).toFin

/-- `y` = bits 4 to 7 (R61). -/
def fieldY (op : Word) : Reg := (op.extractLsb' 4 4).toFin

/-- `n` = bits 0 to 3 (R61). -/
def fieldN (op : Word) : Nibble := op.extractLsb' 0 4

/-- `kk` = bits 0 to 7 (R61). -/
def fieldKK (op : Word) : Byte := op.extractLsb' 0 8

/-- `nnn` = bits 0 to 11 (R61). -/
def fieldNNN (op : Word) : Lit12 := op.extractLsb' 0 12

/-- Why bytes give no instruction. -/
inductive DecodeError where
  /-- fewer than the two bytes of an instruction are there (R60) -/
  | truncated
  /-- the top nibble has no family (R69); no 16-bit word is rejected so (log 14) -/
  | invalidOpcode
deriving DecidableEq, Repr

/-- Family 0: the two whole words, and the fallback (R66). -/
def decodeFamily0 (op : Word) : Instr :=
  if op = 0x00E0#16 then .cls else if op = 0x00EE#16 then .ret else .sys (fieldNNN op)

/-- Family 5: low nibble 0 only (R65, R67). -/
def decodeFamily5 (op : Word) : Instr :=
  if fieldN op = 0#4 then .seReg (fieldX op) (fieldY op) else .reserved5 (fieldNNN op)

/-- Family 8: low nibbles 0 to 7 and E (R65, R67). -/
def decodeFamily8 (op : Word) : Instr :=
  match (fieldN op).toNat with
  | 0x0 => .ldReg (fieldX op) (fieldY op)
  | 0x1 => .orReg (fieldX op) (fieldY op)
  | 0x2 => .andReg (fieldX op) (fieldY op)
  | 0x3 => .xorReg (fieldX op) (fieldY op)
  | 0x4 => .addReg (fieldX op) (fieldY op)
  | 0x5 => .subReg (fieldX op) (fieldY op)
  | 0x6 => .shr (fieldX op) (fieldY op)
  | 0x7 => .subnReg (fieldX op) (fieldY op)
  | 0xE => .shl (fieldX op) (fieldY op)
  | _ => .reserved8 (fieldNNN op)

/-- Family 9: low nibble 0 only (R65, R67). -/
def decodeFamily9 (op : Word) : Instr :=
  if fieldN op = 0#4 then .sneReg (fieldX op) (fieldY op) else .reserved9 (fieldNNN op)

/-- Family E: low bytes 9E and A1 (R65, R67). -/
def decodeFamilyE (op : Word) : Instr :=
  match (fieldKK op).toNat with
  | 0x9E => .skp (fieldX op)
  | 0xA1 => .sknp (fieldX op)
  | _ => .reservedE (fieldNNN op)

/-- Family F: nine low bytes (R65, R67). -/
def decodeFamilyF (op : Word) : Instr :=
  match (fieldKK op).toNat with
  | 0x07 => .ldVxDt (fieldX op)
  | 0x0A => .ldVxK (fieldX op)
  | 0x15 => .ldDtVx (fieldX op)
  | 0x18 => .ldStVx (fieldX op)
  | 0x1E => .addI (fieldX op)
  | 0x29 => .ldF (fieldX op)
  | 0x33 => .ldB (fieldX op)
  | 0x55 => .storeRegs (fieldX op)
  | 0x65 => .loadRegs (fieldX op)
  | _ => .reservedF (fieldNNN op)

/-- The first level of the dispatch: "dispatches on the top 4 bits" (R65). The last arm is the defensive arm of R69. -/
def decodeWord (op : Word) : Except DecodeError Instr :=
  match (fieldT op).toNat with
  | 0x0 => .ok (decodeFamily0 op)
  | 0x1 => .ok (.jp (fieldNNN op))
  | 0x2 => .ok (.call (fieldNNN op))
  | 0x3 => .ok (.seImm (fieldX op) (fieldKK op))
  | 0x4 => .ok (.sneImm (fieldX op) (fieldKK op))
  | 0x5 => .ok (decodeFamily5 op)
  | 0x6 => .ok (.ldImm (fieldX op) (fieldKK op))
  | 0x7 => .ok (.addImm (fieldX op) (fieldKK op))
  | 0x8 => .ok (decodeFamily8 op)
  | 0x9 => .ok (decodeFamily9 op)
  | 0xA => .ok (.ldI (fieldNNN op))
  | 0xB => .ok (.jpV0 (fieldNNN op))
  | 0xC => .ok (.rnd (fieldX op) (fieldKK op))
  | 0xD => .ok (.drw (fieldX op) (fieldY op) (fieldN op))
  | 0xE => .ok (decodeFamilyE op)
  | 0xF => .ok (decodeFamilyF op)
  | _ => .error .invalidOpcode

/-- Big-endian assembly of a word from the byte at the lower address and the byte after it (spec/20_memory.md R42). -/
def wordOfBytes (hi lo : Byte) : Word := hi ++ lo

/-- The two bytes of a word as they lie in memory, lower address first (R42, R74). -/
def bytesOfWord (w : Word) : List Byte := [w.extractLsb' 8 8, w.extractLsb' 0 8]

/-- Decoding of a byte sequence: one instruction of two bytes and the bytes after it (R60). -/
def decodeBytes : List Byte → Except DecodeError (Instr × List Byte)
  | hi :: lo :: rest => (decodeWord (wordOfBytes hi lo)).map (fun ins => (ins, rest))
  | _ => .error .truncated

/-- Format `A` (R62): `t`, `nnn`. -/
def formatA (t : Nibble) (nnn : Lit12) : Word := t ++ nnn

/-- Formats `XK` and `XS` (R62): `t`, `x`, `kk` or the byte sub-opcode. -/
def formatXK (t : Nibble) (x : Reg) (kk : Byte) : Word := t ++ BitVec.ofFin (w := 4) x ++ kk

/-- Formats `XY` and `XYN` (R62): `t`, `x`, `y`, `n` or the nibble sub-opcode. -/
def formatXYN (t : Nibble) (x y : Reg) (n : Nibble) : Word :=
  t ++ BitVec.ofFin (w := 4) x ++ BitVec.ofFin (w := 4) y ++ n

/-- The word of an instruction (R64, R74). -/
def encode : Instr → Word
  | .cls => 0x00E0#16
  | .ret => 0x00EE#16
  | .sys nnn => formatA 0x0#4 nnn
  | .jp nnn => formatA 0x1#4 nnn
  | .call nnn => formatA 0x2#4 nnn
  | .seImm x kk => formatXK 0x3#4 x kk
  | .sneImm x kk => formatXK 0x4#4 x kk
  | .seReg x y => formatXYN 0x5#4 x y 0x0#4
  | .ldImm x kk => formatXK 0x6#4 x kk
  | .addImm x kk => formatXK 0x7#4 x kk
  | .ldReg x y => formatXYN 0x8#4 x y 0x0#4
  | .orReg x y => formatXYN 0x8#4 x y 0x1#4
  | .andReg x y => formatXYN 0x8#4 x y 0x2#4
  | .xorReg x y => formatXYN 0x8#4 x y 0x3#4
  | .addReg x y => formatXYN 0x8#4 x y 0x4#4
  | .subReg x y => formatXYN 0x8#4 x y 0x5#4
  | .shr x y => formatXYN 0x8#4 x y 0x6#4
  | .subnReg x y => formatXYN 0x8#4 x y 0x7#4
  | .shl x y => formatXYN 0x8#4 x y 0xE#4
  | .sneReg x y => formatXYN 0x9#4 x y 0x0#4
  | .ldI nnn => formatA 0xA#4 nnn
  | .jpV0 nnn => formatA 0xB#4 nnn
  | .rnd x kk => formatXK 0xC#4 x kk
  | .drw x y n => formatXYN 0xD#4 x y n
  | .skp x => formatXK 0xE#4 x 0x9E#8
  | .sknp x => formatXK 0xE#4 x 0xA1#8
  | .ldVxDt x => formatXK 0xF#4 x 0x07#8
  | .ldVxK x => formatXK 0xF#4 x 0x0A#8
  | .ldDtVx x => formatXK 0xF#4 x 0x15#8
  | .ldStVx x => formatXK 0xF#4 x 0x18#8
  | .addI x => formatXK 0xF#4 x 0x1E#8
  | .ldF x => formatXK 0xF#4 x 0x29#8
  | .ldB x => formatXK 0xF#4 x 0x33#8
  | .storeRegs x => formatXK 0xF#4 x 0x55#8
  | .loadRegs x => formatXK 0xF#4 x 0x65#8
  | .reserved5 low => formatA 0x5#4 low
  | .reserved8 low => formatA 0x8#4 low
  | .reserved9 low => formatA 0x9#4 low
  | .reservedE low => formatA 0xE#4 low
  | .reservedF low => formatA 0xF#4 low

/-- The bytes of an instruction in memory order (R74). -/
def encodeBytes (ins : Instr) : List Byte := bytesOfWord (encode ins)

/-- What the decoder reads from the `nbits` bits `w` of one word of the opcode table, laid out as the hardware stores it. -/
def decodeTableWord (nbits w : Nat) : Option Instr :=
  match decodeBytes (bytesOfWord (BitVec.ofNat 16 (w % 2 ^ nbits))) with
  | .ok (ins, _) => some ins
  | .error _ => none

end Sys2Proof
end

