-- ==== Sys2Proof/Config.lean ====
section
/-!
DEFINITION. What is fixed for the machine (the parameters of spec/00_scope.md R5) and the free values: what the spec leaves
open, as constants with no body.
-/
namespace Sys2Proof.Config

/-- The last address of the one address space: MEM_SIZE is 4096 bytes, `0x000..0xFFF` (R5, R40). -/
abbrev memLast : Nat := 0xFFF

/-- PROG_BASE, where `load` puts a program (R5, R90). -/
abbrev progBase : Nat := 0x200

/-- PROG_MAX_LEN, the longest program `load` accepts (R5, R90). -/
abbrev progMaxLen : Nat := 3232

/-- PC_RESET (R5, R220). -/
abbrev pcReset : Word := 0x200#16

/-- STACK_BASE: the byte address of stack slot 0 (R5, R16). -/
abbrev stackBase : Nat := 0xEA0

/-- STACK_SLOTS: the return addresses the stack holds, as a value of `SP` (R5, R15). -/
abbrev stackSlots : BitVec 6 := 48#6

/-- VIDEO_BASE: the first byte of video memory (R5, R45). -/
abbrev videoBase : Nat := 0xF00

/-- The bytes of video memory (R5, R45). -/
abbrev videoBytes : Nat := 256

/-- SCREEN_W (R5). -/
abbrev screenW : Nat := 64

/-- SCREEN_H (R5). -/
abbrev screenH : Nat := 32

/-- The `n`-th free draw of the `rnd` input: any byte, under no law (spec/10_state.md R24; log 4). -/
opaque freeRnd : Nat → Byte

/-- The `n`-th free sample of the `keys` input: any 16-key state (spec/10_state.md R22; log 3). -/
opaque freeKeys : Nat → BitVec 16

end Sys2Proof.Config
end

