-- ==== Sys2Proof/Machine/State.lean ====
section
/-!
DEFINITION. The state of the machine as plain data: the tuple of spec/10_state.md R29, and after it the model's own fields for
the host agent, its inputs and the engine's outputs (R21, R28); the reasons a step can stop; the state right after reset
(spec/70_reset_and_hazards.md R220).
-/
namespace Sys2Proof.Machine

/-- The 4096 bytes of R10, as the list of those that differ from their reset content, by rising address. -/
abbrev Memory := List Host.Cell

/-- What `load` returns to the host (spec/40_step_and_cycle.md R90). -/
inductive LoadResult where
  | ok
  /-- length 0 (R198) -/
  | emptyProgramError
  /-- length above 3232 (R198) -/
  | programTooLargeError
deriving DecidableEq, Repr

/-- The four operations of the host (R21, R81). -/
inductive HostOp where
  | reset
  | load (bytes : List Byte)
  /-- up to `n` cycles and one timer tick (R80) -/
  | step (n : Nat)
  /-- resolves a pending `Fx0A` (R88) -/
  | deliverKey (k : Nibble)
deriving DecidableEq, Repr

/-- What the engine tells the host beside its level outputs. -/
inductive Event where
  /-- the diagnostic of an unrecognized sub-opcode: the address it was fetched from and the word (R197) -/
  | diag (pc op : Word)
  /-- the value a `load` returned (R90) -/
  | loadReturned (r : LoadResult)
deriving DecidableEq, Repr

/-- The complete state. -/
structure State where
  /-- the memory array (R10) -/
  mem : Memory
  /-- `V[0..15]` (R11); `V[15]` is the flag `VF` (R12) -/
  v : Vector Byte 16
  /-- the address register `I` (R14) -/
  i : Word
  /-- the program counter (R13) -/
  pc : Word
  /-- the stack slot counter, legal values 0 to 48 (R15) -/
  sp : BitVec 6
  /-- the delay timer (R17) -/
  dt : Byte
  /-- the sound timer (R17), also the output `sound` (R26) -/
  st : Byte
  /-- the pending-keypress flag (R19) -/
  wait : Bool
  /-- the pending register index (R19) -/
  waitReg : Reg
  /-- the sticky fault latch (R20) -/
  fault : Bool
  /-- the cause code of the latched fault (R20, R190) -/
  faultCause : BitVec 3
  /-- the address the faulting instruction was fetched from (R20) -/
  faultPc : Word
  /-- the faulting opcode, 0 for a fetch fault (R20) -/
  faultOpcode : Word
  /-- the offending address of the two bounds faults, else 0 (R20) -/
  faultAddr : BitVec 17
  /-- model's own: cycles that the current `step(n)` has still to run, the loop counter of R80 (log 1) -/
  cyclesLeft : Nat
  /-- model's own: host operations issued and not begun yet, oldest first (R81; log 2) -/
  hostOps : List HostOp
  /-- model's own: samples of the `keys` input already supplied, next first (R22; log 3) -/
  keysIn : List (BitVec 16)
  /-- model's own: how many free samples of `keys` have been taken (log 3) -/
  keysCount : Nat
  /-- model's own: draws of the `rnd` input already supplied, next first (R24; log 4) -/
  rndIn : List Byte
  /-- model's own: how many free draws of `rnd` have been taken (log 4) -/
  rndCount : Nat
  /-- model's own: the output events so far, newest first (R90, R197; log 5) -/
  events : List Event
deriving DecidableEq, Repr

/-- Reasons for the machine to stop with a fault outside its own rules. There is none: every fault of this machine is the
latch of R192, which a next state holds, and every step of it has a next state. Nobody raises one; safe (log 16). -/
inductive Fault where
deriving DecidableEq, Repr

/-- Reasons to give an instruction no meaning. -/
inductive Refusal where
  /-- Raised by an arm of `exec` whose instruction has no meaning yet; safe. No arm of this model raises it. -/
  | notModelled (mnemonic : String)
deriving DecidableEq, Repr

/-- The state right after `reset` (R220, the reset column of spec/10_state.md section 1). Memory lists nothing: an unlisted
byte reads as its reset content. The model's own fields start at 0 or empty (DESIGN CHOICE, logs 1 to 5). -/
def State.reset : State where
  mem := []
  v := Vector.replicate 16 0x00#8
  i := 0x0000#16
  pc := Config.pcReset
  sp := 0#6
  dt := 0x00#8
  st := 0x00#8
  wait := false
  waitReg := 0
  fault := false
  faultCause := 0#3
  faultPc := 0x0000#16
  faultOpcode := 0x0000#16
  faultAddr := 0#17
  cyclesLeft := 0
  hostOps := []
  keysIn := []
  keysCount := 0
  rndIn := []
  rndCount := 0
  events := []

end Sys2Proof.Machine
end

