-- ==== Sys2Proof/Machine/Ops.lean ====
section
/-!
DEFINITION. The named operations over memory and registers that every meaning is written with, and taking a fault, the only
exception of this machine (spec/20_memory.md, spec/60_exceptions.md).
-/
namespace Sys2Proof.Machine

/-- What every meaning answers with. -/
abbrev Result := Host.Outcome State Fault Refusal

/-! ## Memory -/

/-- The parameter FONT: 16 glyphs of 5 bytes, glyph `d` at `5*d` (R44). PRESUMED: the table stands in R44, which marks the
byte values as general knowledge (log 6). -/
def font : List Byte :=
  [0xF0, 0x90, 0x90, 0x90, 0xF0,  0x20, 0x60, 0x20, 0x20, 0x70,  0xF0, 0x10, 0xF0, 0x80, 0xF0,  0xF0, 0x10, 0xF0, 0x10, 0xF0] ++
  [0x90, 0x90, 0xF0, 0x10, 0x10,  0xF0, 0x80, 0xF0, 0x10, 0xF0,  0xF0, 0x80, 0xF0, 0x90, 0xF0,  0xF0, 0x10, 0x20, 0x40, 0x40] ++
  [0xF0, 0x90, 0xF0, 0x90, 0xF0,  0xF0, 0x90, 0xF0, 0x10, 0xF0,  0xF0, 0x90, 0xF0, 0x90, 0x90,  0xE0, 0x90, 0xE0, 0x90, 0xE0] ++
  [0xF0, 0x80, 0x80, 0x80, 0xF0,  0xE0, 0x90, 0x90, 0x90, 0xE0,  0xF0, 0x80, 0xF0, 0x80, 0xF0,  0xF0, 0x80, 0xF0, 0x80, 0x80]

/-- What an address that the memory list does not name reads as: its content after `reset`, the font at `0x000..0x04F` and
zero elsewhere (R220). Addresses above `0xFFF` do not exist; no meaning reads one (R47; log 10). -/
def resetByte (a : Nat) : Byte := font.getD a 0x00#8

/-- Direct byte access `mem[a]` (spec/00_scope.md R8). -/
def Memory.read : Memory → Nat → Byte
  | [], a => resetByte a
  | (k, b) :: rest, a => if k = a then b else Memory.read rest a

/-- Puts a cell before the first one with a higher address. -/
def Memory.insert (c : Host.Cell) : Memory → Memory
  | [] => [c]
  | d :: rest => if c.1 < d.1 then c :: d :: rest else d :: Memory.insert c rest

/-- `mem[a] <- b`. The byte's old cell goes; a new one stands for it only where `b` is not what an unlisted address reads as,
so equal memories are equal lists. -/
def Memory.write (m : Memory) (a : Nat) (b : Byte) : Memory :=
  let others := m.filter (fun c => c.1 != a)
  if b = resetByte a then others else Memory.insert (a, b) others

/-- `mem[a], mem[a+1], …` get the bytes of the list, in that order. -/
def Memory.writeBytes : Memory → Nat → List Byte → Memory
  | m, _, [] => m
  | m, a, b :: rest => Memory.writeBytes (m.write a b) (a + 1) rest

/-- The `n` bytes at `a .. a+n-1` go back to their reset content: the list names none of them any more. -/
def Memory.restore (m : Memory) (a n : Nat) : Memory := m.filter (fun c => decide (c.1 < a ∨ a + n ≤ c.1))

/-- The `n` bytes at `a .. a+n-1`. -/
def Memory.readBytes (m : Memory) (a n : Nat) : List Byte := (List.range n).map (fun k => m.read (a + k))

/-- The big-endian 16-bit value at `a`, `mem[a] || mem[a+1]`: MemRead of R8 for two bytes (R42). -/
def Memory.readWord (m : Memory) (a : Nat) : Word := wordOfBytes (m.read a) (m.read (a + 1))

/-- Writes a 16-bit value big-endian at `a`, `a+1`: MemWrite of R8 for two bytes (R42). -/
def Memory.writeWord (m : Memory) (a : Nat) (w : Word) : Memory := m.writeBytes a (bytesOfWord w)

/-- The canonical form: addresses strictly rising, all inside the address space, and no cell that equals its reset content. -/
abbrev Memory.wf (m : Memory) : Prop :=
  m.Pairwise (fun c d => c.1 < d.1) ∧ ∀ c ∈ m, c.1 ≤ Config.memLast ∧ c.2 ≠ resetByte c.1

/-! ## Registers -/

/-- Read of `V[x]` (R8, R11). -/
def State.getV (s : State) (x : Reg) : Byte := s.v[x]

/-- `V[x] <- b` (R8, R11): all sixteen hold whatever was last written. -/
def State.setV (s : State) (x : Reg) (b : Byte) : State := { s with v := s.v.set x b }

/-- The index of `VF` (R12). -/
def vf : Reg := 15

/-- `V0 .. Vx` in this order, `x + 1` bytes (R144). -/
def State.regsUpTo (s : State) (x : Reg) : List Byte := s.v.toList.take (x.val + 1)

/-- `V[r] <- mem[a + r]` for `r` in `0 .. x`; the registers above `x` stay (R145). -/
def State.loadUpTo (s : State) (x : Reg) (a : Nat) : State :=
  { s with v := Vector.ofFn (fun r : Reg => if r ≤ x then s.mem.read (a + r.val) else s.getV r) }

/-- The fetch advance: PC moves past the two bytes of the instruction before its effect (R82, R13). -/
def State.advance (s : State) : State := { s with pc := s.pc + 2#16 }

/-- The address the running instruction was fetched from: during its effect PC is that address plus 2 (R82, R84; log 8). -/
def State.fetchedFrom (s : State) : Word := s.pc - 2#16

/-- An output event (R197). -/
def State.emit (s : State) (e : Event) : State := { s with events := e :: s.events }

/-! ## Taking a fault -/

/-- The faults of R190, each with the address it records. -/
inductive Cause where
  /-- no family (R191); nothing raises it -/
  | invalidOpcode
  /-- the second byte of the fetch lies at `last`, above `0xFFF` -/
  | fetchBounds (last : Nat)
  /-- the last byte of the access lies at `last`, above `0xFFF` -/
  | dataBounds (last : Nat)
  /-- a call with 48 return addresses stacked -/
  | stackOverflow
  /-- a return with none stacked -/
  | stackUnderflow
deriving DecidableEq, Repr

/-- The codes of R190. -/
def causeCode : Cause → BitVec 3
  | .invalidOpcode => 1#3
  | .fetchBounds _ => 2#3
  | .dataBounds _ => 3#3
  | .stackOverflow => 4#3
  | .stackUnderflow => 5#3

/-- `fault_addr` of R190: the offending address for the two bounds faults, else 0. -/
def causeAddr : Cause → BitVec 17
  | .fetchBounds last | .dataBounds last => BitVec.ofNat 17 last
  | .invalidOpcode | .stackOverflow | .stackUnderflow => 0#17

/-- `raise F(info)` of R192: the five fields of the latch are written and nothing else. `a` is the address the instruction was
fetched from, `op` its word. -/
def State.latch (s : State) (c : Cause) (a op : Word) : State :=
  { s with fault := true, faultCause := causeCode c, faultPc := a, faultOpcode := op, faultAddr := causeAddr c }

/-- A fault raised by the effect of instruction `ins`: it is latched on the state after the fetch advance, in which the
instruction has written nothing (R192). -/
def State.raise (s : State) (c : Cause) (ins : Instr) : State := s.latch c s.fetchedFrom (encode ins)

/-- The bounds rule of R47 for an instruction that touches the `n` bytes at `I .. I+n-1`: the whole range is checked before
the instruction writes anything. Addresses are unbounded naturals. With `n = 0` no check applies (R166). -/
def State.withinData (s : State) (ins : Instr) (n : Nat) (done : State) : State :=
  if 0 < n ∧ Config.memLast < s.i.toNat + (n - 1) then s.raise (.dataBounds (s.i.toNat + (n - 1))) ins else done

end Sys2Proof.Machine
end

