-- ==== Sys2Proof/Machine/Flags.lean ====
section
/-!
DEFINITION. The flag computations of the arithmetic_logic_unit and how a flag reaches `VF` (spec/42_alu.md R120, R121).
-/
namespace Sys2Proof.Machine

/-- The carry out of bit 7 of `a + b` (R120, R128). -/
def carryOut (a b : Byte) : Bool := decide (256 ≤ a.toNat + b.toNat)

/-- NOT-borrow of `a - b`: 1 when no borrow (R120, R129, R131). -/
def noBorrow (a b : Byte) : Bool := decide (b.toNat ≤ a.toNat)

/-- The bit a right shift by one shifts out (R120, R130). -/
def shiftedOutRight (a : Byte) : Bool := a.getLsbD 0

/-- The bit a left shift by one shifts out (R120, R132). -/
def shiftedOutLeft (a : Byte) : Bool := a.getLsbD 7

/-- A flag as the byte that `VF` then holds: 0 or 1 (R12). -/
def flagByte (f : Bool) : Byte := if f then 0x01#8 else 0x00#8

/-- `V[15] <- f` (R12). -/
def State.setVF (s : State) (f : Bool) : State := s.setV vf (flagByte f)

/-- The write order of a flag-writing instruction: the result to `V[x]`, then the flag to `V[15]` (R121). -/
def State.setResultThenFlag (s : State) (x : Reg) (r : Byte) (f : Bool) : State := (s.setV x r).setVF f

end Sys2Proof.Machine
end

