-- ==== Sys2Proof/Machine/Operands.lean ====
section
/-!
DEFINITION. The operand forms: zero-extended literals, the conditional skip, the inputs `keys` and `rnd`, stack slots, glyph
addresses, decimal digits and pixel positions (spec/30_encoding.md R63 and the rules named below).
-/
namespace Sys2Proof.Machine

/-- `zext_16(nnn)` (R63). -/
def zext12 (nnn : Lit12) : Word := nnn.setWidth 16

/-- `zext_16` of a register value (R63). -/
def zext8 (b : Byte) : Word := b.setWidth 16

/-- A taken skip adds 2 to the advanced PC (spec/41_flow.md section 2). -/
def State.skipIf (s : State) (c : Bool) : State := if c then { s with pc := s.pc + 2#16 } else s

/-! ## Inputs -/

/-- The byte that the next draw of `rnd` gives: the next one supplied, else a free value (R24; log 4). -/
def State.rndByte (s : State) : Byte :=
  match s.rndIn with
  | b :: _ => b
  | [] => Config.freeRnd s.rndCount

/-- One draw of `rnd` is used up (R24; log 4). -/
def State.takeRnd (s : State) : State :=
  match s.rndIn with
  | _ :: rest => { s with rndIn := rest }
  | [] => { s with rndCount := s.rndCount + 1 }

/-- The 16-key state that the next sample of `keys` gives: the next one supplied, else a free value (R22; log 3). -/
def State.keysNow (s : State) : BitVec 16 :=
  match s.keysIn with
  | ks :: _ => ks
  | [] => Config.freeKeys s.keysCount

/-- One sample of `keys` is used up (R22; log 3). -/
def State.takeKeys (s : State) : State :=
  match s.keysIn with
  | _ :: rest => { s with keysIn := rest }
  | [] => { s with keysCount := s.keysCount + 1 }

/-- `key_pressed(v)` of R23: a value that names no key reads as not pressed, without a mask. -/
def keyPressed (keys : BitVec 16) (v : Byte) : Bool := decide (v.toNat ≤ 15) && keys.getLsbD v.toNat

/-! ## Addresses -/

/-- The byte address of stack slot `k` (R15, R16). -/
def slotAddr (k : BitVec 6) : Nat := Config.stackBase + 2 * k.toNat

/-- `5 * zext_16(Vx)`: the address of glyph `Vx`, not masked (R142). -/
def glyphAddr (b : Byte) : Word := 5#16 * zext8 b

/-- The byte of video memory that holds the pixel in column `px`, row `py` (R45). -/
def pixelAddr (px py : Nat) : Nat := Config.videoBase + 8 * py + px / 8

/-- The bit of that byte, as a mask: bit `7 - (px mod 8)` (R45, R161). -/
def pixelMask (px : Nat) : Byte := 0x80#8 >>> (px % 8)

/-! ## Decimal digits -/

/-- Hundreds, tens, units (R143). -/
def bcdDigits (b : Byte) : List Byte :=
  [BitVec.ofNat 8 (b.toNat / 100), BitVec.ofNat 8 (b.toNat / 10 % 10), BitVec.ofNat 8 (b.toNat % 10)]

end Sys2Proof.Machine
end

