-- ==== Sys2Proof/Machine/Alu.lean ====
section
/-!
DEFINITION. Register load, arithmetic, logic, shifts and random (spec/42_alu.md R122 to R133). Operands are read on the state
before any write; none of these can fault.
-/
namespace Sys2Proof.Machine

/-- R122 `V[x] <- kk`. -/
def execLdImm (x : Reg) (kk : Byte) (s : State) : Result := .next (s.setV x kk)

/-- R123 `V[x] <- (V[x] + kk) mod 256`, no flag. -/
def execAddImm (x : Reg) (kk : Byte) (s : State) : Result := .next (s.setV x (s.getV x + kk))

/-- R124 `V[x] <- V[y]`. -/
def execLdReg (x y : Reg) (s : State) : Result := .next (s.setV x (s.getV y))

/-- R125 `V[x] <- V[x] | V[y]`. -/
def execOrReg (x y : Reg) (s : State) : Result := .next (s.setV x (s.getV x ||| s.getV y))

/-- R126 `V[x] <- V[x] & V[y]`. -/
def execAndReg (x y : Reg) (s : State) : Result := .next (s.setV x (s.getV x &&& s.getV y))

/-- R127 `V[x] <- V[x] ^ V[y]`. -/
def execXorReg (x y : Reg) (s : State) : Result := .next (s.setV x (s.getV x ^^^ s.getV y))

/-- R128: the sum, then `VF` = carry. -/
def execAddReg (x y : Reg) (s : State) : Result :=
  .next (s.setResultThenFlag x (s.getV x + s.getV y) (carryOut (s.getV x) (s.getV y)))

/-- R129: `V[x] - V[y]`, then `VF` = no borrow. -/
def execSubReg (x y : Reg) (s : State) : Result :=
  .next (s.setResultThenFlag x (s.getV x - s.getV y) (noBorrow (s.getV x) (s.getV y)))

/-- R130: logical shift right of `V[x]`, then `VF` = bit shifted out; `y` is ignored. -/
def execShr (x _y : Reg) (s : State) : Result :=
  .next (s.setResultThenFlag x (s.getV x >>> 1) (shiftedOutRight (s.getV x)))

/-- R131: `V[y] - V[x]`, then `VF` = no borrow. -/
def execSubnReg (x y : Reg) (s : State) : Result :=
  .next (s.setResultThenFlag x (s.getV y - s.getV x) (noBorrow (s.getV y) (s.getV x)))

/-- R132: shift left of `V[x]`, then `VF` = bit shifted out; `y` is ignored. -/
def execShl (x _y : Reg) (s : State) : Result :=
  .next (s.setResultThenFlag x (s.getV x <<< 1) (shiftedOutLeft (s.getV x)))

/-- R133 `V[x] <- rnd() & kk`, one draw of the input. -/
def execRnd (x : Reg) (kk : Byte) (s : State) : Result := .next (s.takeRnd.setV x (s.rndByte &&& kk))

end Sys2Proof.Machine
end

