-- ==== Sys2Proof/Machine/Display.lean ====
section
/-!
DEFINITION. Clear screen and draw sprite (spec/44_display.md R160 to R166), over the video memory layout of spec/20_memory.md
R45. A drawing in progress is the memory so far and the collision so far.
-/
namespace Sys2Proof.Machine

/-- R160: all 256 bytes of video memory become zero, which is their reset content (R220). -/
def execCls (s : State) : Result := .next { s with mem := s.mem.restore Config.videoBase Config.videoBytes }

/-- One sprite bit that is 1 and lies inside the frame: the pixel is toggled; a lit one is a collision (R161, R164). -/
def plotPixel (px py : Nat) (c : Memory × Bool) : Memory × Bool :=
  let old := c.1.read (pixelAddr px py)
  (c.1.write (pixelAddr px py) (old ^^^ pixelMask px), c.2 || (old &&& pixelMask px) != 0x00#8)

/-- Column `col` of a sprite row: skipped beyond the right edge (R162); sprite bit 7 is column 0 (R163). -/
def plotColumn (row : Byte) (vx py : Nat) (c : Memory × Bool) (col : Nat) : Memory × Bool :=
  if vx + col < Config.screenW ∧ row.getLsbD (7 - col) = true then plotPixel (vx + col) py c else c

/-- One sprite row: skipped beyond the bottom edge (R162). -/
def plotRow (row : Byte) (vx py : Nat) (c : Memory × Bool) : Memory × Bool :=
  if py < Config.screenH then (List.range 8).foldl (plotColumn row vx py) c else c

/-- The rows of a sprite from frame row `py` down (R161). -/
def plotRows (vx : Nat) : Nat → List Byte → Memory × Bool → Memory × Bool
  | _, [], c => c
  | py, row :: rest, c => plotRows vx (py + 1) rest (plotRow row vx py c)

/-- R161: all sprite bytes are read first (R165), then drawn with clipping; `VF` = collision, written last. -/
def execDrw (x y : Reg) (n : Nibble) (s : State) : Result :=
  let sprite := s.mem.readBytes s.i.toNat n.toNat
  let drawn := plotRows (s.getV x).toNat (s.getV y).toNat sprite (s.mem, false)
  .next (s.withinData (.drw x y n) n.toNat (State.setVF { s with mem := drawn.1 } drawn.2))

end Sys2Proof.Machine
end

