-- ==== Sys2Proof/Machine/Flow.lean ====
section
/-!
DEFINITION. Control transfer (spec/41_flow.md R100 to R109). In the state given to a meaning PC is already the advanced value
`a + 2` (spec/40_step_and_cycle.md R84). No target is checked (R13): a target above `0xFFE` faults at the next fetch.
-/
namespace Sys2Proof.Machine

/-- R100: an empty stack faults; else `SP <- SP - 1` and PC is the slot at the new SP. -/
def execRet (s : State) : Result :=
  .next (if s.sp = 0#6 then s.raise .stackUnderflow .ret
         else { s with sp := s.sp - 1#6, pc := s.mem.readWord (slotAddr (s.sp - 1#6)) })

/-- R101: a jump to the literal opcode value, which is `nnn`. -/
def execSys (nnn : Lit12) (s : State) : Result := .next { s with pc := zext12 nnn }

/-- R102. -/
def execJp (nnn : Lit12) (s : State) : Result := .next { s with pc := zext12 nnn }

/-- R103: a full stack faults; else the advanced PC is pushed at slot `SP`, `SP <- SP + 1`, `PC <- nnn`. -/
def execCall (nnn : Lit12) (s : State) : Result :=
  .next (if s.sp = Config.stackSlots then s.raise .stackOverflow (.call nnn)
         else { s with mem := s.mem.writeWord (slotAddr s.sp) s.pc, sp := s.sp + 1#6, pc := zext12 nnn })

/-- R104 `PC <- nnn + V[0]`, neither masked nor checked. -/
def execJpV0 (nnn : Lit12) (s : State) : Result := .next { s with pc := zext12 nnn + zext8 (s.getV 0) }

/-- R105. -/
def execSeImm (x : Reg) (kk : Byte) (s : State) : Result := .next (s.skipIf (s.getV x == kk))

/-- R106. -/
def execSneImm (x : Reg) (kk : Byte) (s : State) : Result := .next (s.skipIf (s.getV x != kk))

/-- R107. -/
def execSeReg (x y : Reg) (s : State) : Result := .next (s.skipIf (s.getV x == s.getV y))

/-- R108. -/
def execSneReg (x y : Reg) (s : State) : Result := .next (s.skipIf (s.getV x != s.getV y))

end Sys2Proof.Machine
end

