-- ==== Sys2Proof/Machine/Index.lean ====
section
/-!
DEFINITION. The address register, BCD and block store and load (spec/43_index_memory.md R140 to R145). `I` is never changed by
an access; the whole range is checked before the first write.
-/
namespace Sys2Proof.Machine

/-- R140 `I <- nnn`. -/
def execLdI (nnn : Lit12) (s : State) : Result := .next { s with i := zext12 nnn }

/-- R141 `I <- (I + V[x]) mod 65536`, no flag. -/
def execAddI (x : Reg) (s : State) : Result := .next { s with i := s.i + zext8 (s.getV x) }

/-- R142 `I <- 5 * V[x]`. -/
def execLdF (x : Reg) (s : State) : Result := .next { s with i := glyphAddr (s.getV x) }

/-- R143: the three decimal digits to `I`, `I+1`, `I+2`. -/
def execLdB (x : Reg) (s : State) : Result :=
  .next (s.withinData (.ldB x) 3 { s with mem := s.mem.writeBytes s.i.toNat (bcdDigits (s.getV x)) })

/-- R144: `V0..Vx` to `mem[I..I+x]`. -/
def execStoreRegs (x : Reg) (s : State) : Result :=
  .next (s.withinData (.storeRegs x) (x.val + 1) { s with mem := s.mem.writeBytes s.i.toNat (s.regsUpTo x) })

/-- R145: `mem[I..I+x]` to `V0..Vx`. -/
def execLoadRegs (x : Reg) (s : State) : Result :=
  .next (s.withinData (.loadRegs x) (x.val + 1) (s.loadUpTo x s.i.toNat))

end Sys2Proof.Machine
end

