-- ==== Sys2Proof/Machine/KeysTimers.lean ====
section
/-!
DEFINITION. Keypad and timer instructions (spec/45_keys_timers.md R170 to R176).
-/
namespace Sys2Proof.Machine

/-- R170: one sample of the keys; skip if key `V[x]` is pressed. -/
def execSkp (x : Reg) (s : State) : Result := .next (s.takeKeys.skipIf (keyPressed s.keysNow (s.getV x)))

/-- R171: one sample of the keys; skip if key `V[x]` is not pressed. -/
def execSknp (x : Reg) (s : State) : Result := .next (s.takeKeys.skipIf (!keyPressed s.keysNow (s.getV x)))

/-- R173 `V[x] <- DT`. -/
def execLdVxDt (x : Reg) (s : State) : Result := .next (s.setV x s.dt)

/-- R176: suspends the engine; the register is written later, by `deliver_key`. -/
def execLdVxK (x : Reg) (s : State) : Result := .next { s with wait := true, waitReg := x }

/-- R174 `DT <- V[x]`. -/
def execLdDtVx (x : Reg) (s : State) : Result := .next { s with dt := s.getV x }

/-- R175 `ST <- V[x]`. -/
def execLdStVx (x : Reg) (s : State) : Result := .next { s with st := s.getV x }

end Sys2Proof.Machine
end

