-- ==== Sys2Proof/Machine/Reserved.lean ====
section
/-!
DEFINITION. The unrecognized sub-opcodes of families 5, 8, 9, E and F (spec/30_encoding.md R68): a complete cycle without effect
that emits one diagnostic event (spec/60_exceptions.md R197).
-/
namespace Sys2Proof.Machine

/-- R68 `diag(a, op)` and nothing else. -/
def State.unrecognized (s : State) (ins : Instr) : State := s.emit (.diag s.fetchedFrom (encode ins))

/-- R68, family 5. -/
def execReserved5 (low : Lit12) (s : State) : Result := .next (s.unrecognized (.reserved5 low))

/-- R68, family 8. -/
def execReserved8 (low : Lit12) (s : State) : Result := .next (s.unrecognized (.reserved8 low))

/-- R68, family 9. -/
def execReserved9 (low : Lit12) (s : State) : Result := .next (s.unrecognized (.reserved9 low))

/-- R68, family E. -/
def execReservedE (low : Lit12) (s : State) : Result := .next (s.unrecognized (.reservedE low))

/-- R68, family F. -/
def execReservedF (low : Lit12) (s : State) : Result := .next (s.unrecognized (.reservedF low))

end Sys2Proof.Machine
end

