-- ==== Sys2Proof/Machine/HostOps.lean ====
section
/-!
DEFINITION. The host's side of the engine: the four operations (spec/40_step_and_cycle.md R80, R88, R90,
spec/70_reset_and_hazards.md R220), the timer tick (R86) and the outputs (spec/10_state.md R25 to R27).
-/
namespace Sys2Proof.Machine

/-- R86 for one timer: down by one, stopping at 0. -/
def countDown (t : Byte) : Byte := if t = 0x00#8 then 0x00#8 else t - 1#8

/-- `tick()` of R86. -/
def State.tick (s : State) : State := { s with dt := countDown s.dt, st := countDown s.st }

/-- `reset` of R220 on the engine. What is not state of the engine stays: the operations and inputs still to come and the
events so far (R28; logs 2 to 5). -/
def State.resetEngine (s : State) : State :=
  { State.reset with
    hostOps := s.hostOps, keysIn := s.keysIn, keysCount := s.keysCount,
    rndIn := s.rndIn, rndCount := s.rndCount, events := s.events }

/-- `load(bytes)` of R90: the length checks first, then reset, then the copy to `0x200`. -/
def State.loadProgram (s : State) (bytes : List Byte) : State :=
  if bytes.length = 0 then s.emit (.loadReturned .emptyProgramError)
  else if Config.progMaxLen < bytes.length then s.emit (.loadReturned .programTooLargeError)
  else
    let r := s.resetEngine
    State.emit { r with mem := r.mem.writeBytes Config.progBase bytes } (.loadReturned .ok)

/-- `deliver_key(k)` of R88: ignored when halted or when nothing is pending. -/
def State.deliver (s : State) (k : Nibble) : State :=
  if s.fault = true then s
  else if s.wait = true then { s.setV s.waitReg (k.setWidth 8) with wait := false }
  else s

/-- The start of `step(n)` (R80): nothing when halted or suspended; with `n = 0` only the tick (R89); else `n` cycles are to
run, one by each machine step. -/
def State.beginStep (s : State) (n : Nat) : State :=
  if s.fault = true ∨ s.wait = true then s
  else if n = 0 then s.tick
  else { s with cyclesLeft := n }

/-- One operation of the host (R81). -/
def State.applyHostOp (s : State) : HostOp → State
  | .reset => s.resetEngine
  | .load bytes => s.loadProgram bytes
  | .step n => s.beginStep n
  | .deliverKey k => s.deliver k

/-- Between steps the next operation of the host begins; with none issued nothing changes (R81). -/
def State.hostTurn (s : State) : State :=
  match s.hostOps with
  | [] => s
  | op :: rest => State.applyHostOp { s with hostOps := rest } op

/-! ## Outputs -/

/-- `video`: the 256 bytes the presentation collaborator reads (R25). -/
def State.video (s : State) : List Byte := s.mem.readBytes Config.videoBase Config.videoBytes

/-- The pixel in column `px`, row `py` of a memory: bit `7 - (px mod 8)` of its byte (R45). -/
def Memory.pixel (m : Memory) (px py : Nat) : Bool := (m.read (pixelAddr px py)).getLsbD (7 - px % 8)

/-- `sound`: ST itself (R26). -/
def State.sound (s : State) : Byte := s.st

/-- `waiting`, `waiting_reg` (R27). -/
def State.waiting (s : State) : Bool × Reg := (s.wait, s.waitReg)

/-- `fault`, `fault_cause`, `fault_pc`, `fault_opcode`, `fault_addr` (R27). -/
def State.faultReport (s : State) : Bool × BitVec 3 × Word × Word × BitVec 17 :=
  (s.fault, s.faultCause, s.faultPc, s.faultOpcode, s.faultAddr)

/-- The three conditions of R208. -/
inductive Condition where
  | running
  | suspended
  | halted
deriving DecidableEq, Repr

/-- The condition, decided by two bits (R208); `fault` is tested first (R200). -/
def State.condition (s : State) : Condition :=
  if s.fault = true then .halted else if s.wait = true then .suspended else .running

end Sys2Proof.Machine
end

