-- ==== Sys2Proof/Machine/Cycle.lean ====
section
/-!
DEFINITION. The decode-execute cycle (spec/40_step_and_cycle.md R82, R83), what follows it inside `step(n)` (R80, R85, R87), and
placing a word where the next fetch reads it.
-/
namespace Sys2Proof.Machine

/-- `fetch()` of R83: the big-endian word at PC, or the FetchBounds fault. -/
def State.fetch (s : State) : Except Cause Word :=
  if 0xFFE < s.pc.toNat then .error (.fetchBounds (s.pc.toNat + 1)) else .ok (s.mem.readWord s.pc.toNat)

/-- `cycle()` of R82: fetch, advance, decode, execute. A fetch fault leaves PC as it is and records opcode 0 (R190, R192). The
decoder's error is the defensive arm of R69, which no word reaches (log 14). -/
def State.cycle (s : State) : Result :=
  match s.fetch with
  | .error c => .next (s.latch c s.pc 0x0000#16)
  | .ok op =>
    match decodeWord op with
    | .ok ins => exec ins s.advance
    | .error _ => .next (s.advance.latch .invalidOpcode s.pc op)

/-- After a cycle (R80): a fault ends the step without a tick (R87); a wait ends it with the tick (R85); else one cycle less is
left, and the tick follows the last one (R86). -/
def State.afterCycle (s : State) : State :=
  if s.fault = true then { s with cyclesLeft := 0 }
  else if s.wait = true ∨ s.cyclesLeft ≤ 1 then State.tick { s with cyclesLeft := 0 }
  else { s with cyclesLeft := s.cyclesLeft - 1 }

/-- What a machine step does while cycles of a `step(n)` are left. -/
def State.cycleTurn (s : State) : Result :=
  match s.cycle with
  | .next t => .next t.afterCycle
  | .fault r => .fault r
  | .refused r => .refused r

/-- One machine step: while cycles of a `step(n)` are left, one cycle; else the next operation of the host begins (log 1). Cycles
left on a halted or suspended engine, which no run reaches, are dropped: such an engine runs none (R208; log 15). -/
def State.machineStep (s : State) : Result :=
  match s.cyclesLeft with
  | 0 => .next s.hostTurn
  | _ + 1 => if s.fault = true ∨ s.wait = true then .next { s with cyclesLeft := 0 } else s.cycleTurn

/-- The fault latch cleared, as `reset` leaves it (R220). -/
def State.clearFault (s : State) : State :=
  { s with fault := false, faultCause := 0#3, faultPc := 0x0000#16, faultOpcode := 0x0000#16, faultAddr := 0#17 }

/-- The state with the word `w` stored where the next machine step fetches, and made ready to run that cycle: PC in range, not
suspended, not halted, and inside a `step(n)` with a further cycle to come, so that no tick follows (log 12). -/
def State.placeWord (s : State) (w : Word) : State :=
  let at' := if 0xFFE < s.pc.toNat then Config.pcReset else s.pc
  let ready := if s.fault = true then s.clearFault else s
  { ready with
    mem := s.mem.writeWord at'.toNat w, pc := at', wait := false, cyclesLeft := max 2 s.cyclesLeft }

end Sys2Proof.Machine
end

