-- ==== Sys2Proof/Machine/Step.lean ====
section
/-! DEFINITION. The machine's step, and a word placed for it to fetch (log 1, log 12). -/
namespace Sys2Proof.Machine

/-- One step of the machine: one decode-execute cycle of the current `step(n)`, or the start of the host's next operation. -/
def step (s : State) : Host.Outcome State Fault Refusal := s.machineStep

/-- The state with the `nbits` bits `w` of one instruction stored where `step` fetches next, so that the very next step runs
exactly that instruction. -/
def State.withFetchWord (s : State) (nbits w : Nat) : State := s.placeWord (BitVec.ofNat 16 (w % 2 ^ nbits))

end Sys2Proof.Machine
end

