-- ==== Sys2Proof/Safety.lean ====
section
/-!
DEFINITION. The terms that claims are made in: the invariant of spec/10_state.md R30, launch states and the states that runs
reach, what an instruction leaves unchanged, `step(n)` written as the loop of spec/40_step_and_cycle.md R80, and which bit of a
sprite meets which pixel (spec/44_display.md R161). No meaning uses any of them.
-/
namespace Sys2Proof.Machine

/-- What holds of every state that a run reaches: memory in its canonical form; `0 <= SP <= 48`; a clear latch has cause 0 and a
set one a cause in 1 to 5; never suspended and halted at once (R30); and no cycle of a step is left on a suspended or halted
engine (R80, R87; the model's own field, log 15). -/
abbrev State.Inv (s : State) : Prop :=
  s.mem.wf ∧ s.sp.toNat ≤ 48 ∧
  (s.fault = false → s.faultCause = 0#3) ∧
  (s.fault = true → 1 ≤ s.faultCause.toNat ∧ s.faultCause.toNat ≤ 5) ∧
  ¬(s.wait = true ∧ s.fault = true) ∧
  (s.cyclesLeft ≠ 0 → s.fault = false ∧ s.wait = false)

/-- A launch state: after `reset`, with whatever the host will do and supply (R221, R222; logs 2, 3, 4, 12). -/
def launch (ops : List HostOp) (keys : List (BitVec 16)) (draws : List Byte) : State :=
  { State.reset with hostOps := ops, keysIn := keys, rndIn := draws }

/-- The states that some run reaches, whatever the host does. -/
inductive Reachable : State → Prop where
  | launched (ops : List HostOp) (keys : List (BitVec 16)) (draws : List Byte) : Reachable (launch ops keys draws)
  | stepped {s t : State} : Reachable s → step s = .next t → Reachable t

/-- Cycles run on this state: neither halted nor suspended, and inside a `step(n)` (R80, R208). -/
abbrev State.Running (s : State) : Prop := s.fault = false ∧ s.wait = false ∧ s.cyclesLeft ≠ 0

/-! ## Frames -/

/-- Every byte of memory reads as before. -/
def SameBytes (s t : State) : Prop := ∀ a, t.mem.read a = s.mem.read a

/-- Every byte of memory but the `n` bytes from `base` on reads as before. -/
def SameBytesOutside (base n : Nat) (s t : State) : Prop :=
  ∀ a, a < base ∨ base + n ≤ a → t.mem.read a = s.mem.read a

/-- At most the registers `V[r]` with `r` in the list have changed; every other register, every byte of memory and every
other part of the state is as before. -/
def OnlyV (dests : List Reg) (s t : State) : Prop :=
  (∀ r, r ∉ dests → t.getV r = s.getV r) ∧ SameBytes s t ∧ t = { s with v := t.v }

/-- At most PC has changed. -/
def OnlyPc (s t : State) : Prop := SameBytes s t ∧ t = { s with pc := t.pc }

/-- At most the `n` bytes of memory from `base` on have changed. -/
def OnlyBytes (base n : Nat) (s t : State) : Prop := SameBytesOutside base n s t ∧ t = { s with mem := t.mem }

/-- Exactly the fault latch has been written, with these values (R192). -/
def Latched (code : BitVec 3) (a op : Word) (addr : Nat) (s t : State) : Prop :=
  t = { s with fault := true, faultCause := code, faultPc := a, faultOpcode := op, faultAddr := BitVec.ofNat 17 addr }

/-! ## `step(n)` as the loop of R80 -/

/-- The loop `for i in 1 .. n` of R80 and the tick after it. -/
def runCycles : Nat → State → Result
  | 0, s => .next s.tick
  | n + 1, s =>
    match s.cycle with
    | .next t => if t.fault = true then .next t else if t.wait = true then .next t.tick else runCycles n t
    | .fault r => .fault r
    | .refused r => .refused r

/-- `step(n)` of R80. -/
def stepN (n : Nat) (s : State) : Result :=
  if s.fault = true then .next s else if s.wait = true then .next s else runCycles n s

/-! ## Sprites -/

/-- The bit of a sprite that meets the frame pixel in column `px`, row `py`, when its top left corner is at `(vx, vy)`: row
`py - vy` of the sprite, bit 7 leftmost (R161, R163). A pixel that the sprite does not cover meets no bit. -/
def spriteBit (rows : List Byte) (vx vy px py : Nat) : Bool :=
  decide (vx ≤ px ∧ px < vx + 8 ∧ vy ≤ py) && ((rows[py - vy]?).getD 0x00#8).getLsbD (7 - (px - vx))

/-- The bytes that `DXYN` reads as its sprite, `I .. I+n-1` (R161). -/
def State.sprite (s : State) (n : Nibble) : List Byte := s.mem.readBytes s.i.toNat n.toNat

/-- The bounds check of `DXYN`: no byte to read, or the last one inside memory (R161, R166). -/
def State.spriteInBounds (s : State) (n : Nibble) : Prop := n.toNat = 0 ∨ s.i.toNat + n.toNat - 1 ≤ Config.memLast

end Sys2Proof.Machine
end

