-- ==== Sys2Proof/Certificates/Slice0/Obligations.lean ====
section
/-!
DEFINITION. The statements for the provers. Each docstring names the sentence of the spec it formalises. "The spec's decision
D<n>" is a choice the spec itself marks as its own (spec/92_eei_decisions.md); "log <n>" is this model's own convention
(notes/assumptions/<n>.md). An instruction's meaning `exec` is applied to the state after the fetch advance, so `s.pc` is the
address of the following instruction and `s.pc - 2` the address the instruction was fetched from (log 8).
-/

open Sys2Proof Sys2Proof.Machine

/-! ## Encoding -/

/-- Words written out from the patterns of R64 and the examples of R74 (`DRW V1, V2, 5` is `0xD125`, bytes `D1 25`;
`LD V3, 0x9C` is `0x639C`; `CALL 0x2F0` is `0x22F0`). -/
def Obligations.WrittenOutWordsDecode : Prop :=
  decodeBytes [0xD1#8, 0x25#8] = .ok (.drw 1 2 5#4, []) ∧
  decodeBytes [0x63#8, 0x9C#8, 0x22#8, 0xF0#8] = .ok (.ldImm 3 0x9C#8, [0x22#8, 0xF0#8]) ∧
  decodeBytes [0x22#8, 0xF0#8] = .ok (.call 0x2F0#12, []) ∧
  decodeBytes [0x00#8, 0xE0#8] = .ok (.cls, []) ∧ decodeBytes [0x01#8, 0xE0#8] = .ok (.sys 0x1E0#12, []) ∧
  decodeBytes [0x81#8, 0x27#8] = .ok (.subnReg 1 2, []) ∧ decodeBytes [0xF4#8, 0x29#8] = .ok (.ldF 4, []) ∧
  decodeBytes [0xE5#8, 0xA1#8] = .ok (.sknp 5, []) ∧ decodeBytes [0x51#8, 0x23#8] = .ok (.reserved5 0x123#12, []) ∧
  decodeBytes [0xF1#8] = .error .truncated

/-- Encoding is the inverse of decoding (R74, R61): every well-formed instruction, with every value of its operands, is what its
word decodes to. -/
def Obligations.EncodedInstructionDecodesToItself : Prop :=
  ∀ ins : Instr, ins.wellFormed = true → decodeWord (encode ins) = .ok ins

/-- "Decode is total: every one of the 65536 words falls in exactly one cell of this table" (R65), so no word is an invalid
opcode (R69): each decodes to a well-formed instruction whose word it is. -/
def Obligations.EveryWordIsSomeInstructionsWord : Prop :=
  ∀ w : Word, ∃ ins, decodeWord w = .ok ins ∧ ins.wellFormed = true ∧ encode ins = w

/-- The unrecognized words of R67, family by family (with the spec's decision D10 for families 5 and 9). -/
def Obligations.UnrecognizedWordsAreThoseOfTheTable : Prop :=
  ∀ w : Word, ∀ ins, decodeWord w = .ok ins →
    ((∃ low, ins = .reserved5 low) ↔ fieldT w = 0x5#4 ∧ fieldN w ≠ 0#4) ∧
    ((∃ low, ins = .reserved8 low) ↔ fieldT w = 0x8#4 ∧ (fieldN w).toNat ∈ [0x8, 0x9, 0xA, 0xB, 0xC, 0xD, 0xF]) ∧
    ((∃ low, ins = .reserved9 low) ↔ fieldT w = 0x9#4 ∧ fieldN w ≠ 0#4) ∧
    ((∃ low, ins = .reservedE low) ↔ fieldT w = 0xE#4 ∧ (fieldKK w).toNat ∉ [0x9E, 0xA1]) ∧
    ((∃ low, ins = .reservedF low) ↔ fieldT w = 0xF#4 ∧
      (fieldKK w).toNat ∉ [0x07, 0x0A, 0x15, 0x18, 0x1E, 0x29, 0x33, 0x55, 0x65])

/-- In family 0 only the whole words `0x00E0` and `0x00EE` are clear screen and return; every other one is the fallback (R66;
the spec's decision D11). -/
def Obligations.ClearAndReturnAreWholeWords : Prop :=
  ∀ w : Word,
    (decodeWord w = .ok .cls ↔ w = 0x00E0#16) ∧ (decodeWord w = .ok .ret ↔ w = 0x00EE#16) ∧
    (∀ nnn, decodeWord w = .ok (.sys nnn) ↔ w = formatA 0x0#4 nnn ∧ w ≠ 0x00E0#16 ∧ w ≠ 0x00EE#16)

/-! ## Reset -/

/-- Every part of the engine after `reset` (R220, reset column of 10_state.md section 1; the values of `wait_reg` and of the fault latch are
the spec's decision D25): all 80 font bytes of R44, general knowledge by the spec's own mark (D30; log 6), and zero above them. -/
def Obligations.ResetLeavesTheSpecValues : Prop :=
  (∀ r, State.reset.getV r = 0x00#8) ∧ State.reset.i = 0x0000#16 ∧ State.reset.pc = 0x0200#16 ∧ State.reset.sp = 0#6 ∧
  State.reset.dt = 0x00#8 ∧ State.reset.st = 0x00#8 ∧ State.reset.waiting = (false, 0) ∧
  State.reset.faultReport = (false, 0#3, 0x0000#16, 0x0000#16, 0#17) ∧
  State.reset.mem.readBytes 0x000 20 =
    [0xF0, 0x90, 0x90, 0x90, 0xF0,  0x20, 0x60, 0x20, 0x20, 0x70,  0xF0, 0x10, 0xF0, 0x80, 0xF0,  0xF0, 0x10, 0xF0, 0x10, 0xF0] ∧
  State.reset.mem.readBytes 0x014 20 =
    [0x90, 0x90, 0xF0, 0x10, 0x10,  0xF0, 0x80, 0xF0, 0x10, 0xF0,  0xF0, 0x80, 0xF0, 0x90, 0xF0,  0xF0, 0x10, 0x20, 0x40, 0x40] ∧
  State.reset.mem.readBytes 0x028 20 =
    [0xF0, 0x90, 0xF0, 0x90, 0xF0,  0xF0, 0x90, 0xF0, 0x10, 0xF0,  0xF0, 0x90, 0xF0, 0x90, 0x90,  0xE0, 0x90, 0xE0, 0x90, 0xE0] ∧
  State.reset.mem.readBytes 0x03C 20 =
    [0xF0, 0x80, 0x80, 0x80, 0xF0,  0xE0, 0x90, 0x90, 0x90, 0xE0,  0xF0, 0x80, 0xF0, 0x80, 0xF0,  0xF0, 0x80, 0xF0, 0x80, 0x80] ∧
  (∀ a, 0x050 ≤ a → State.reset.mem.read a = 0x00#8)

/-! ## The machine step and the cycle -/

/-- A cycle is fetch, advance, decode, execute (R82, R83): on a running engine with PC in range, the step runs the meaning of the
instruction that the two bytes at PC, high byte first, decode to, on the state with PC advanced by 2. What the step adds around
it: a fault ends the `step(n)` without a tick, a wait or the last cycle ends it with one tick, else one cycle less is left
(R80, R85, R87; the spec's decisions D8, D21; the counter is log 1). -/
def Obligations.StepRunsTheDecodedInstruction : Prop :=
  ∀ (s t : State) (ins : Instr), s.Running → s.pc.toNat ≤ 0xFFE →
    decodeWord (wordOfBytes (s.mem.read s.pc.toNat) (s.mem.read (s.pc.toNat + 1))) = .ok ins →
    exec ins { s with pc := s.pc + 2#16 } = .next t →
    step s = .next (if t.fault = true then { t with cyclesLeft := 0 }
      else if t.wait = true ∨ t.cyclesLeft ≤ 1 then { t with cyclesLeft := 0, dt := countDown t.dt, st := countDown t.st }
      else { t with cyclesLeft := t.cyclesLeft - 1 })

/-- A fetch with PC above `0xFFE` latches FetchBounds: code 2, the address PC + 1, opcode 0, PC kept, nothing else written, and
the step ends without a tick (R83, R190, R192; the spec's decisions D6, D8). -/
def Obligations.FetchAboveMemoryLatchesFetchBounds : Prop :=
  ∀ s : State, s.Running → 0xFFE < s.pc.toNat →
    step s = .next { s with fault := true, faultCause := 2#3, faultPc := s.pc, faultOpcode := 0x0000#16,
                            faultAddr := BitVec.ofNat 17 (s.pc.toNat + 1), cyclesLeft := 0 }

/-- A word stored at PC, high byte first, is the word the next fetch reads (R42, R51; the spec's decision D32): no fence between a
store and a fetch. -/
def Obligations.StoreIsSeenByTheNextFetch : Prop :=
  ∀ (s : State) (hi lo : Byte), s.pc.toNat ≤ 0xFFE →
    State.fetch { s with mem := s.mem.writeBytes s.pc.toNat [hi, lo] } = .ok (hi ++ lo)

/-- "each timer decrements by at most 1 per `step` call, stopping at 0; never auto-reloads" (R86): the tick, and nothing else
changes. -/
def Obligations.TickCountsBothTimersDown : Prop :=
  ∀ s : State, s.tick.dt.toNat = s.dt.toNat - 1 ∧ s.tick.st.toNat = s.st.toNat - 1 ∧
    s.tick = { s with dt := s.tick.dt, st := s.tick.st }

/-- The engine never acts on its own: between steps, with no operation issued by the host, nothing changes (R81; the queue of
operations is log 2). -/
def Obligations.NothingChangesWithoutTheHost : Prop :=
  ∀ s : State, s.cyclesLeft = 0 → s.hostOps = [] → step s = .next s

/-- The start of `step(n)`: a suspended or halted engine runs no cycle and ticks no timer; with `n = 0` a running one only ticks
(the spec's decision D23); else it has `n` cycles to run (R80, R89, R193; the counter is log 1). -/
def Obligations.StepOperationBegins : Prop :=
  ∀ (s : State) (n : Nat) (rest : List HostOp), s.cyclesLeft = 0 → s.hostOps = .step n :: rest →
    (s.condition ≠ .running → step s = .next { s with hostOps := rest }) ∧
    (s.condition = .running → n = 0 → step s = .next { s with hostOps := rest, dt := countDown s.dt, st := countDown s.st }) ∧
    (s.condition = .running → n ≠ 0 → step s = .next { s with hostOps := rest, cyclesLeft := n })

/-- The machine's steps after the host issues `step(n)` are together the loop of R80, whatever happens in it: exactly `n` cycles
and one tick; the early exits at a wait and at a fault (R85, R87; the spec's decisions D8, D21, D23). -/
def Obligations.MachineStepsRunTheLoopOfStepN : Prop :=
  ∀ (s : State) (n : Nat) (rest : List HostOp), s.cyclesLeft = 0 → s.hostOps = .step n :: rest →
    ∃ k, 1 ≤ k ∧ k ≤ n + 1 ∧ Sys2Proof.core.run k s = stepN n { s with hostOps := rest }

/-- `deliver_key(k)` writes the key index to the pending register, clears the wait and changes nothing else; with nothing pending
or on a halted engine it is ignored (R88; the spec's decision D22). -/
def Obligations.DeliverKeyResolvesThePendingWait : Prop :=
  ∀ (s : State) (k : Nibble) (rest : List HostOp), s.cyclesLeft = 0 → s.hostOps = .deliverKey k :: rest →
    (s.condition = .suspended → ∃ t, step s = .next t ∧ (t.getV s.waitReg).toNat = k.toNat ∧
      (∀ r, r ≠ s.waitReg → t.getV r = s.getV r) ∧ t = { s with v := t.v, wait := false, hostOps := rest }) ∧
    (s.condition ≠ .suspended → step s = .next { s with hostOps := rest })

/-- Load errors: "Loading an empty program fails with the empty-program error; … loading one byte larger fails with the too-large
error"; they change no state and set no latch (R198; the returned value is an event, log 5). -/
def Obligations.LoadErrorsChangeNothing : Prop :=
  ∀ (s : State) (bytes : List Byte) (rest : List HostOp), s.cyclesLeft = 0 → s.hostOps = .load bytes :: rest →
    (bytes.length = 0 →
      step s = .next { s with hostOps := rest, events := .loadReturned .emptyProgramError :: s.events }) ∧
    (3232 < bytes.length →
      step s = .next { s with hostOps := rest, events := .loadReturned .programTooLargeError :: s.events })

/-- A successful load resets the engine and copies the program verbatim to `0x200`; no other byte of memory differs from the
reset content (R90, R220; the spec's decision D24). -/
def Obligations.LoadResetsAndCopiesTheProgram : Prop :=
  ∀ (s : State) (bytes : List Byte) (rest : List HostOp), s.cyclesLeft = 0 → s.hostOps = .load bytes :: rest →
    0 < bytes.length → bytes.length ≤ 3232 → ∃ t, step s = .next t ∧
      (∀ k, (h : k < bytes.length) → t.mem.read (0x200 + k) = bytes[k]) ∧
      SameBytesOutside 0x200 bytes.length State.reset t ∧
      t = { State.reset with mem := t.mem, hostOps := rest, keysIn := s.keysIn, keysCount := s.keysCount, rndIn := s.rndIn,
                             rndCount := s.rndCount, events := .loadReturned .ok :: s.events }

/-- `reset` puts every part of the engine at its reset value; it does not touch the inputs (R220, R221; logs 2 to 5 for the
model's own fields). -/
def Obligations.ResetOperationResetsTheEngine : Prop :=
  ∀ (s : State) (rest : List HostOp), s.cyclesLeft = 0 → s.hostOps = .reset :: rest →
    step s = .next { State.reset with hostOps := rest, keysIn := s.keysIn, keysCount := s.keysCount, rndIn := s.rndIn,
                                      rndCount := s.rndCount, events := s.events }

/-- The latch is sticky: on a halted engine a step changes no state of the engine, unless the host's operation is `reset` or a
load that succeeds (R193, R202; the spec's decision D8). -/
def Obligations.HaltedEngineKeepsItsState : Prop :=
  ∀ s t : State, s.fault = true → step s = .next t →
    t = { s with hostOps := t.hostOps, cyclesLeft := t.cyclesLeft, events := t.events } ∨
    (s.cyclesLeft = 0 ∧ ∃ rest, s.hostOps = .reset :: rest ∨
      ∃ bytes : List Byte, s.hostOps = .load bytes :: rest ∧ 0 < bytes.length ∧ bytes.length ≤ 3232)

/-! ## Register instructions: results, completion and frame -/

/-- R122 to R127: load immediate, add immediate modulo 256, assign, OR, AND, XOR. Each completes in every state, writes `V[x]` and
nothing else; that `VF` changes only where `x = 15` names it is the spec's decision D15 (log 13). -/
def Obligations.LoadAddImmediateAndLogicResults : Prop :=
  ∀ (s : State) (x y : Reg) (kk : Byte),
    (∃ t, exec (.ldImm x kk) s = .next t ∧ t.getV x = kk ∧ OnlyV [x] s t) ∧
    (∃ t, exec (.addImm x kk) s = .next t ∧ (t.getV x).toNat = ((s.getV x).toNat + kk.toNat) % 256 ∧ OnlyV [x] s t) ∧
    (∃ t, exec (.ldReg x y) s = .next t ∧ t.getV x = s.getV y ∧ OnlyV [x] s t) ∧
    (∃ t, exec (.orReg x y) s = .next t ∧ t.getV x = s.getV x ||| s.getV y ∧ OnlyV [x] s t) ∧
    (∃ t, exec (.andReg x y) s = .next t ∧ t.getV x = s.getV x &&& s.getV y ∧ OnlyV [x] s t) ∧
    (∃ t, exec (.xorReg x y) s = .next t ∧ t.getV x = s.getV x ^^^ s.getV y ∧ OnlyV [x] s t)

/-- R128, R129, R131: add, subtract, reverse subtract modulo 256, with `VF` = carry or no-borrow of the values before the
instruction. With `x = 15` the result is overwritten by the flag (R121; there the spec's decision D14). -/
def Obligations.AddAndSubtractResultsAndFlags : Prop :=
  ∀ (s : State) (x y : Reg),
    (∃ t, exec (.addReg x y) s = .next t ∧
      (x ≠ 15 → (t.getV x).toNat = ((s.getV x).toNat + (s.getV y).toNat) % 256) ∧
      (t.getV 15).toNat = (if (s.getV x).toNat + (s.getV y).toNat ≥ 256 then 1 else 0) ∧ OnlyV [x, 15] s t) ∧
    (∃ t, exec (.subReg x y) s = .next t ∧
      (x ≠ 15 → (t.getV x).toNat = ((s.getV x).toNat + 256 - (s.getV y).toNat) % 256) ∧
      (t.getV 15).toNat = (if (s.getV x).toNat ≥ (s.getV y).toNat then 1 else 0) ∧ OnlyV [x, 15] s t) ∧
    (∃ t, exec (.subnReg x y) s = .next t ∧
      (x ≠ 15 → (t.getV x).toNat = ((s.getV y).toNat + 256 - (s.getV x).toNat) % 256) ∧
      (t.getV 15).toNat = (if (s.getV y).toNat ≥ (s.getV x).toNat then 1 else 0) ∧ OnlyV [x, 15] s t)

/-- R130, R132: shifts of `V[x]` by one, `VF` = the bit shifted out; `V[y]` is neither read nor written (the spec's decisions
D12, and D14 for `x = 15`). -/
def Obligations.ShiftResultsAndFlags : Prop :=
  ∀ (s : State) (x y : Reg),
    (∃ t, exec (.shr x y) s = .next t ∧ (x ≠ 15 → (t.getV x).toNat = (s.getV x).toNat / 2) ∧
      (t.getV 15).toNat = (s.getV x).toNat % 2 ∧ OnlyV [x, 15] s t) ∧
    (∃ t, exec (.shl x y) s = .next t ∧ (x ≠ 15 → (t.getV x).toNat = (s.getV x).toNat * 2 % 256) ∧
      (t.getV 15).toNat = (s.getV x).toNat / 128 ∧ OnlyV [x, 15] s t) ∧
    (∀ z, exec (.shr x y) s = exec (.shr x z) s ∧ exec (.shl x y) s = exec (.shl x z) s)

/-- R133 with R24: `V[x]` is one draw of the random input masked with `kk`. A byte the host has supplied is the draw and is used
up; with none supplied the draw is a free value and the next one is another (log 4). Nothing else changes. -/
def Obligations.RandomResultIsOneMaskedDraw : Prop :=
  ∀ (s : State) (x : Reg) (kk : Byte), ∃ t, exec (.rnd x kk) s = .next t ∧
    (∀ b rest, s.rndIn = b :: rest → t.getV x = b &&& kk ∧ t.rndIn = rest ∧ t.rndCount = s.rndCount) ∧
    (s.rndIn = [] → t.getV x = Config.freeRnd s.rndCount &&& kk ∧ t.rndIn = [] ∧ t.rndCount = s.rndCount + 1) ∧
    t.getV x &&& ~~~kk = 0x00#8 ∧ (∀ r, r ≠ x → t.getV r = s.getV r) ∧ SameBytes s t ∧
    t = { s with v := t.v, rndIn := t.rndIn, rndCount := t.rndCount }

/-! ## Control transfer -/

/-- R102, R104: jump to `nnn`, jump to `nnn + V[0]` as a plain sum, neither masked nor checked. Only PC changes. -/
def Obligations.JumpResults : Prop :=
  ∀ (s : State) (nnn : Lit12),
    (∃ t, exec (.jp nnn) s = .next t ∧ t.pc.toNat = nnn.toNat ∧ OnlyPc s t) ∧
    (∃ t, exec (.jpV0 nnn) s = .next t ∧ t.pc.toNat = nnn.toNat + (s.getV 0).toNat ∧ OnlyPc s t)

/-- R101: `0NNN` is a jump to the opcode value; nothing is pushed and no diagnostic is emitted (the spec's decision D33). -/
def Obligations.NativeCallSlotIsAJump : Prop :=
  ∀ (s : State) (nnn : Lit12), ∃ t, exec (.sys nnn) s = .next t ∧ t.pc = encode (.sys nnn) ∧ OnlyPc s t

/-- R105 to R108: the conditional skips (which opcode of a pair is "equal" is the spec's decision D29; log 7). Only PC changes,
and only when the skip is taken. -/
def Obligations.ConditionalSkipResults : Prop :=
  ∀ (s : State) (x y : Reg) (kk : Byte),
    (∃ t, exec (.seImm x kk) s = .next t ∧ t.pc = (if s.getV x = kk then s.pc + 2#16 else s.pc) ∧ OnlyPc s t) ∧
    (∃ t, exec (.sneImm x kk) s = .next t ∧ t.pc = (if s.getV x = kk then s.pc else s.pc + 2#16) ∧ OnlyPc s t) ∧
    (∃ t, exec (.seReg x y) s = .next t ∧ t.pc = (if s.getV x = s.getV y then s.pc + 2#16 else s.pc) ∧ OnlyPc s t) ∧
    (∃ t, exec (.sneReg x y) s = .next t ∧ t.pc = (if s.getV x = s.getV y then s.pc else s.pc + 2#16) ∧ OnlyPc s t)

/-- R103: with room on the stack, a call pushes the advanced PC big-endian into slot `SP`, increments `SP` and jumps; no other byte
of memory changes (slot layout: the spec's decisions D3, D4). -/
def Obligations.CallPushesTheReturnAddress : Prop :=
  ∀ (s : State) (nnn : Lit12), s.sp.toNat < 48 → ∃ t, exec (.call nnn) s = .next t ∧
    t.pc.toNat = nnn.toNat ∧ t.sp.toNat = s.sp.toNat + 1 ∧
    (t.mem.read (slotAddr s.sp)).toNat = s.pc.toNat / 256 ∧
    (t.mem.read (slotAddr s.sp + 1)).toNat = s.pc.toNat % 256 ∧
    slotAddr s.sp = 0xEA0 + 2 * s.sp.toNat ∧ SameBytesOutside (slotAddr s.sp) 2 s t ∧
    t = { s with mem := t.mem, sp := t.sp, pc := t.pc }

/-- R100: with a return address stacked, a return decrements `SP` and loads PC from the slot at the new `SP`, high byte first; the
slot is not cleared (slot layout: the spec's decisions D3, D4). -/
def Obligations.ReturnPopsTheReturnAddress : Prop :=
  ∀ s : State, 0 < s.sp.toNat → ∃ t, exec .ret s = .next t ∧ t.sp.toNat = s.sp.toNat - 1 ∧
    t.pc.toNat = (s.mem.read (0xEA0 + 2 * (s.sp.toNat - 1))).toNat * 256
      + (s.mem.read (0xEA0 + 2 * (s.sp.toNat - 1) + 1)).toNat ∧
    SameBytes s t ∧ t = { s with sp := t.sp, pc := t.pc }

/-- R100, R103, R190, R192: a call at `SP = 48` latches StackOverflow (4), a return at `SP = 0` StackUnderflow (5), with the
address and word of the instruction and no other write (the spec's decisions D5, D8, D9). -/
def Obligations.StackFaultsAreLatched : Prop :=
  ∀ (s : State) (a : Word) (nnn : Lit12), s.pc = a + 2#16 →
    (s.sp = 48#6 → ∃ t, exec (.call nnn) s = .next t ∧ Latched 4#3 a (formatA 0x2#4 nnn) 0 s t) ∧
    (s.sp = 0#6 → ∃ t, exec .ret s = .next t ∧ Latched 5#3 a 0x00EE#16 0 s t)

/-- "Call (`2NNN`) followed immediately by return (`00EE`) restores PC to the instruction after the call, and leaves SP unchanged
net of the push/pop pair" (R103): the return is fetched at the target, and only the slot's bytes stay changed. -/
def Obligations.CallThenReturnComesBack : Prop :=
  ∀ (s : State) (nnn : Lit12), s.sp.toNat < 48 → ∃ t u, exec (.call nnn) s = .next t ∧
    exec .ret { t with pc := t.pc + 2#16 } = .next u ∧ u.pc = s.pc ∧ u.sp = s.sp ∧ OnlyBytes (slotAddr s.sp) 2 s u

/-! ## Address register and memory -/

/-- R140: `I <- nnn`. -/
def Obligations.SetIndexResult : Prop :=
  ∀ (s : State) (nnn : Lit12), ∃ t, exec (.ldI nnn) s = .next t ∧ t.i.toNat = nnn.toNat ∧ SameBytes s t ∧
    t = { s with i := t.i }

/-- R141, R142: `I + V[x]` modulo 65536 with no flag, and `5 * V[x]` unmasked (the spec's decisions D16, D17). -/
def Obligations.AddToIndexAndGlyphAddressResults : Prop :=
  ∀ (s : State) (x : Reg),
    (∃ t, exec (.addI x) s = .next t ∧ t.i.toNat = (s.i.toNat + (s.getV x).toNat) % 65536 ∧ SameBytes s t ∧
      t = { s with i := t.i }) ∧
    (∃ t, exec (.ldF x) s = .next t ∧ t.i.toNat = 5 * (s.getV x).toNat ∧ SameBytes s t ∧ t = { s with i := t.i })

/-- R143: in bounds, the three decimal digits of `V[x]` are stored at `I`, `I+1`, `I+2`, each in 0 to 9, together `V[x]` again;
no other byte and no other part of the state changes (the bound is the spec's decision D6). -/
def Obligations.BcdStoresTheDecimalDigits : Prop :=
  ∀ (s : State) (x : Reg), s.i.toNat + 2 ≤ 0xFFF → ∃ t, exec (.ldB x) s = .next t ∧
    (t.mem.read s.i.toNat).toNat = (s.getV x).toNat / 100 ∧
    (t.mem.read (s.i.toNat + 1)).toNat = (s.getV x).toNat / 10 % 10 ∧
    (t.mem.read (s.i.toNat + 2)).toNat = (s.getV x).toNat % 10 ∧
    100 * (t.mem.read s.i.toNat).toNat + 10 * (t.mem.read (s.i.toNat + 1)).toNat + (t.mem.read (s.i.toNat + 2)).toNat
      = (s.getV x).toNat ∧ OnlyBytes s.i.toNat 3 s t

/-- R144: in bounds, `V[0..x]` are stored at `I .. I+x`, `V[0]` first; no other byte changes and `I` is unchanged (the spec's
decisions D6, D13). -/
def Obligations.BlockStoreWritesTheRegisters : Prop :=
  ∀ (s : State) (x : Reg), s.i.toNat + x.val ≤ 0xFFF → ∃ t, exec (.storeRegs x) s = .next t ∧
    (∀ r, r ≤ x → t.mem.read (s.i.toNat + r.val) = s.getV r) ∧ OnlyBytes s.i.toNat (x.val + 1) s t

/-- R145: in bounds, `V[0..x]` are loaded from `I .. I+x`; the registers above `V[x]`, memory and `I` are unchanged (the spec's
decisions D6, D13). -/
def Obligations.BlockLoadReadsTheRegisters : Prop :=
  ∀ (s : State) (x : Reg), s.i.toNat + x.val ≤ 0xFFF → ∃ t, exec (.loadRegs x) s = .next t ∧
    (∀ r, r ≤ x → t.getV r = s.mem.read (s.i.toNat + r.val)) ∧ (∀ r, x < r → t.getV r = s.getV r) ∧ SameBytes s t ∧
    t = { s with v := t.v }

/-- A block load brings back what a block store put away, whatever the registers hold in between (R144, R145). -/
def Obligations.BlockStoreThenLoadRestores : Prop :=
  ∀ (s t : State) (x : Reg) (between : Vector Byte 16), s.i.toNat + x.val ≤ 0xFFF → exec (.storeRegs x) s = .next t →
    ∃ u, exec (.loadRegs x) { t with v := between } = .next u ∧ ∀ r, r ≤ x → u.getV r = s.getV r

/-- R47, R190, R192: an access through `I` whose last byte lies above `0xFFF` latches DataBounds (3) with that byte's address, before
any byte is written; addresses do not wrap (the spec's decisions D6, D8, D9, D20). -/
def Obligations.DataBoundsFaultsAreLatched : Prop :=
  ∀ (s : State) (a : Word) (x y : Reg) (n : Nibble), s.pc = a + 2#16 →
    (0xFFF < s.i.toNat + 2 →
      ∃ t, exec (.ldB x) s = .next t ∧ Latched 3#3 a (formatXK 0xF#4 x 0x33#8) (s.i.toNat + 2) s t) ∧
    (0xFFF < s.i.toNat + x.val →
      (∃ t, exec (.storeRegs x) s = .next t ∧ Latched 3#3 a (formatXK 0xF#4 x 0x55#8) (s.i.toNat + x.val) s t) ∧
      (∃ t, exec (.loadRegs x) s = .next t ∧ Latched 3#3 a (formatXK 0xF#4 x 0x65#8) (s.i.toNat + x.val) s t)) ∧
    (0 < n.toNat → 0xFFF < s.i.toNat + n.toNat - 1 →
      ∃ t, exec (.drw x y n) s = .next t ∧ Latched 3#3 a (formatXYN 0xD#4 x y n) (s.i.toNat + n.toNat - 1) s t)

/-! ## Display -/

/-- R160: "zero the entire video-memory region"; nothing outside it changes. -/
def Obligations.ClearScreenZeroesVideoMemory : Prop :=
  ∀ s : State, ∃ t, exec .cls s = .next t ∧ (∀ a, 0xF00 ≤ a → a ≤ 0xFFF → t.mem.read a = 0x00#8) ∧ OnlyBytes 0xF00 256 s t

/-- R161 to R166: a draw whose sprite lies in memory toggles each frame pixel by the sprite bit that meets it, all sprite bytes read
first and nothing wrapped, sets `VF` to 1 exactly when a lit pixel was toggled and to 0 otherwise, and changes nothing outside
video memory and `VF` (clipping of the origin, bit order, snapshot and bounds: the spec's decisions D6, D20; log 7). -/
def Obligations.DrawTogglesPixelsAndReportsCollision : Prop :=
  ∀ (s : State) (x y : Reg) (n : Nibble), s.spriteInBounds n → ∃ t, exec (.drw x y n) s = .next t ∧
    (∀ px py, px < 64 → py < 32 → t.mem.pixel px py =
      (s.mem.pixel px py ^^ spriteBit (s.sprite n) (s.getV x).toNat (s.getV y).toNat px py)) ∧
    (t.getV 15 = 0x01#8 ↔ ∃ px py, px < 64 ∧ py < 32 ∧ s.mem.pixel px py = true ∧
      spriteBit (s.sprite n) (s.getV x).toNat (s.getV y).toNat px py = true) ∧
    (t.getV 15 = 0x00#8 ∨ t.getV 15 = 0x01#8) ∧ (∀ r, r ≠ 15 → t.getV r = s.getV r) ∧
    SameBytesOutside 0xF00 256 s t ∧ t = { s with mem := t.mem, v := t.v }

/-- "toggling the same sprite at the same location twice restores the original video memory (XOR idempotence)" (R164), for a sprite
that does not lie in video memory and coordinates that are not `VF`, which the first draw overwrites. The second draw reports 1
exactly when the first one lit a pixel inside the frame; every byte of memory is as before both draws. -/
def Obligations.DrawingTwiceRestoresVideoMemory : Prop :=
  ∀ (s t : State) (x y : Reg) (n : Nibble), n.toNat = 0 ∨ s.i.toNat + n.toNat ≤ 0xF00 → x ≠ 15 → y ≠ 15 →
    exec (.drw x y n) s = .next t → ∃ u, exec (.drw x y n) t = .next u ∧ SameBytes s u ∧
      (∀ r, r ≠ 15 → u.getV r = s.getV r) ∧ u = { s with mem := u.mem, v := u.v } ∧
      (u.getV 15 = 0x01#8 ↔ ∃ px py, px < 64 ∧ py < 32 ∧ s.mem.pixel px py = false ∧
        spriteBit (s.sprite n) (s.getV x).toNat (s.getV y).toNat px py = true)

/-- A sprite drawn with its origin off the frame draws nothing and sets `VF` to 0: no wrap (R162; the spec's decision D20); so does
one of no rows (R166). -/
def Obligations.DrawOffTheFrameDrawsNothing : Prop :=
  ∀ (s : State) (x y : Reg) (n : Nibble), s.spriteInBounds n →
    64 ≤ (s.getV x).toNat ∨ 32 ≤ (s.getV y).toNat ∨ n.toNat = 0 →
    ∃ t, exec (.drw x y n) s = .next t ∧ t.getV 15 = 0x00#8 ∧ OnlyV [15] s t

/-- The `video` output is the pixels of R45: bit `7 - (px mod 8)` of byte `8*py + px/8` of the 256 bytes (R25, R45). That
column 0 is the left edge and row 0 the top one is general knowledge by the spec's mark G7 (log 7), and nothing here rests on it. -/
def Obligations.VideoOutputHoldsThePixels : Prop :=
  ∀ s : State, s.video.length = 256 ∧ ∀ px py, px < 64 → py < 32 →
    ∃ b, s.video[8 * py + px / 8]? = some b ∧ s.mem.pixel px py = b.getLsbD (7 - px % 8)

/-! ## Keys and timers -/

/-- R170, R171 with R22, R23: one sample of the keys decides; a value above 15 names no key and reads as not pressed (the spec's
decisions D18, D28, D29; log 7). A sample the host has supplied is used up; with none supplied it is a free value (log 3). -/
def Obligations.KeySkipResults : Prop :=
  ∀ (s : State) (x : Reg), ∃ t u, exec (.skp x) s = .next t ∧ exec (.sknp x) s = .next u ∧
    (∀ keys rest, s.keysIn = keys :: rest → t.keysIn = rest ∧ u.keysIn = rest ∧
      t.keysCount = s.keysCount ∧ u.keysCount = s.keysCount ∧
      t.pc = (if (s.getV x).toNat ≤ 15 ∧ keys.getLsbD (s.getV x).toNat = true then s.pc + 2#16 else s.pc) ∧
      u.pc = (if (s.getV x).toNat ≤ 15 ∧ keys.getLsbD (s.getV x).toNat = true then s.pc else s.pc + 2#16)) ∧
    (s.keysIn = [] →
      t.pc = (if (s.getV x).toNat ≤ 15 ∧ (Config.freeKeys s.keysCount).getLsbD (s.getV x).toNat = true then s.pc + 2#16 else s.pc) ∧
      u.pc = (if (s.getV x).toNat ≤ 15 ∧ (Config.freeKeys s.keysCount).getLsbD (s.getV x).toNat = true then s.pc else s.pc + 2#16) ∧
      t.keysIn = [] ∧ u.keysIn = [] ∧ t.keysCount = s.keysCount + 1 ∧ u.keysCount = s.keysCount + 1) ∧
    SameBytes s t ∧ t = { s with pc := t.pc, keysIn := t.keysIn, keysCount := t.keysCount } ∧
    SameBytes s u ∧ u = { s with pc := u.pc, keysIn := u.keysIn, keysCount := u.keysCount }

/-- R173 to R175: read the delay timer, write the delay timer, write the sound timer, the last seen at the `sound` output (which
opcode does which is the spec's decision D29; log 7). -/
def Obligations.TimerTransferResults : Prop :=
  ∀ (s : State) (x : Reg),
    (∃ t, exec (.ldVxDt x) s = .next t ∧ t.getV x = s.dt ∧ OnlyV [x] s t) ∧
    (∃ t, exec (.ldDtVx x) s = .next t ∧ t.dt = s.getV x ∧ SameBytes s t ∧ t = { s with dt := t.dt }) ∧
    (∃ t, exec (.ldStVx x) s = .next t ∧ t.sound = s.getV x ∧ SameBytes s t ∧ t = { s with st := t.st })

/-- R176, R80, R85, R88 on the machine's steps: a running engine that fetches `Fx0A` suspends; the step ends with one tick and no
cycle left (the spec's decision D21), no register written. Then every `step(n)` the host issues, however many, is used up without
a cycle or a tick; the first key delivered after them is written to `V[x]` and clears the flag, and nothing else changes (the
spec's decision D22; the counter and the queue are logs 1 and 2). -/
def Obligations.WaitForKeySuspendsUntilDelivery : Prop :=
  ∀ (s : State) (x : Reg), s.Running → s.pc.toNat ≤ 0xFFE →
    decodeWord (wordOfBytes (s.mem.read s.pc.toNat) (s.mem.read (s.pc.toNat + 1))) = .ok (.ldVxK x) →
    ∃ t, step s = .next t ∧
      t = { s with pc := s.pc + 2#16, wait := true, waitReg := x, dt := countDown s.dt, st := countDown s.st, cyclesLeft := 0 } ∧
      (∀ (ns : List Nat) rest, s.hostOps = ns.map HostOp.step ++ rest →
        Sys2Proof.core.run ns.length t = .next { t with hostOps := rest }) ∧
      (∀ (ns : List Nat) (k : Nibble) rest, s.hostOps = ns.map HostOp.step ++ .deliverKey k :: rest →
        ∃ u, Sys2Proof.core.run (ns.length + 1) t = .next u ∧ (u.getV x).toNat = k.toNat ∧
          (∀ r, r ≠ x → u.getV r = s.getV r) ∧ u = { t with v := u.v, wait := false, hostOps := rest })

/-- R176: the wait instruction completes in every state: exactly the flag and the pending register are written. -/
def Obligations.WaitForKeyCompletes : Prop :=
  ∀ (s : State) (x : Reg), ∃ t, exec (.ldVxK x) s = .next t ∧ t.waiting = (true, x) ∧ SameBytes s t ∧
    t = { s with wait := true, waitReg := x }

/-! ## Unrecognized words -/

/-- R68: an unrecognized sub-opcode fetched from `a` emits one diagnostic event with `a` and the word, "allowing execution to
continue", and changes nothing else. What the event carries is the spec's decision D10; that the address is PC minus 2 and the
word the encoding is log 8 (DEDUCED), that events are a list, newest first, is log 5 (DESIGN CHOICE). -/
def Obligations.UnrecognizedWordsOnlyEmitADiagnostic : Prop :=
  ∀ (s : State) (a : Word) (low : Lit12), s.pc = a + 2#16 →
    exec (.reserved5 low) s = .next { s with events := .diag a (formatA 0x5#4 low) :: s.events } ∧
    exec (.reserved8 low) s = .next { s with events := .diag a (formatA 0x8#4 low) :: s.events } ∧
    exec (.reserved9 low) s = .next { s with events := .diag a (formatA 0x9#4 low) :: s.events } ∧
    exec (.reservedE low) s = .next { s with events := .diag a (formatA 0xE#4 low) :: s.events } ∧
    exec (.reservedF low) s = .next { s with events := .diag a (formatA 0xF#4 low) :: s.events }

/-! ## Rules over all instructions -/

/-- Every instruction completes, and so does every machine step: no instruction is refused and no run stops. The model's own reading:
a fault of this machine is a next state with the latch set (log 16, DEDUCED), and a step with cycles left on a suspended or halted
engine drops them (log 15, DESIGN CHOICE). -/
def Obligations.EveryInstructionAndStepCompletes : Prop :=
  (∀ (ins : Instr) (s : State), ∃ t, exec ins s = .next t) ∧ ∀ s : State, ∃ t, step s = .next t

/-- "No other instruction and no other condition raises a fault" (R190; the spec's decisions D5, D6). -/
def Obligations.OnlyTheListedConditionsRaiseFaults : Prop :=
  ∀ (ins : Instr) (s t : State), exec ins s = .next t → s.fault = false → t.fault = true →
    (ins = .ret ∧ s.sp = 0#6) ∨ (∃ nnn, ins = .call nnn ∧ s.sp = 48#6) ∨
    (∃ x, ins = .ldB x ∧ 0xFFF < s.i.toNat + 2) ∨
    (∃ x, (ins = .storeRegs x ∨ ins = .loadRegs x) ∧ 0xFFF < s.i.toNat + x.val) ∨
    (∃ x y n, ins = .drw x y n ∧ 0 < n.toNat ∧ 0xFFF < s.i.toNat + n.toNat - 1)

/-- "Only these touch `mem`" (R48), its writing part: clear screen, call, draw, BCD store and block store, each inside its own
bytes. -/
def Obligations.OnlyStoringInstructionsChangeMemory : Prop :=
  ∀ (ins : Instr) (s t : State) (a : Nat), exec ins s = .next t → t.mem.read a ≠ s.mem.read a →
    (ins = .cls ∧ 0xF00 ≤ a ∧ a ≤ 0xFFF) ∨
    (∃ nnn, ins = .call nnn ∧ slotAddr s.sp ≤ a ∧ a ≤ slotAddr s.sp + 1) ∨
    (∃ x y n, ins = .drw x y n ∧ 0xF00 ≤ a ∧ a ≤ 0xFFF) ∨
    (∃ x, ins = .ldB x ∧ s.i.toNat ≤ a ∧ a ≤ s.i.toNat + 2) ∨
    (∃ x, ins = .storeRegs x ∧ s.i.toNat ≤ a ∧ a ≤ s.i.toNat + x.val)

/-- Which instructions write each special register: `SP` only call and return (R15), `I` only `ANNN`, `Fx1E`, `Fx29` (R14), `DT` only
`Fx15` and `ST` only `Fx18` (R17; which timer opcode writes which timer is the spec's decision D29, general knowledge G3, log 7,
PRESUMED), the wait pair only `Fx0A` (R19), PC beyond the fetch advance only the transfers and skips (R13). -/
def Obligations.SpecialRegistersHaveTheirOnlyWriters : Prop :=
  ∀ (ins : Instr) (s t : State), exec ins s = .next t →
    (t.sp ≠ s.sp → ins = .ret ∨ ∃ nnn, ins = .call nnn) ∧
    (t.i ≠ s.i → (∃ nnn, ins = .ldI nnn) ∨ ∃ x, ins = .addI x ∨ ins = .ldF x) ∧
    (t.dt ≠ s.dt → ∃ x, ins = .ldDtVx x) ∧ (t.st ≠ s.st → ∃ x, ins = .ldStVx x) ∧
    (t.wait ≠ s.wait ∨ t.waitReg ≠ s.waitReg → ∃ x, ins = .ldVxK x) ∧
    (t.pc ≠ s.pc → ins = .ret ∨ (∃ nnn, ins = .sys nnn ∨ ins = .jp nnn ∨ ins = .call nnn ∨ ins = .jpV0 nnn) ∨
      (∃ x kk, ins = .seImm x kk ∨ ins = .sneImm x kk) ∨ (∃ x y, ins = .seReg x y ∨ ins = .sneReg x y) ∨
      ∃ x, ins = .skp x ∨ ins = .sknp x)

/-- Which instructions write `VF` (R12): the six flag-writing ones; any other only by naming it as `x` (the spec's decision
D15), or a block load of all sixteen. That of the timer opcodes `Fx07` may write it and `Fx15`, `Fx18` never do is the spec's
decision D29, general knowledge G3 (log 7, PRESUMED). -/
def Obligations.VfHasItsOnlyWriters : Prop :=
  ∀ (ins : Instr) (s t : State), exec ins s = .next t → t.getV 15 ≠ s.getV 15 →
    (∃ x y, ins = .addReg x y ∨ ins = .subReg x y ∨ ins = .subnReg x y ∨ ins = .shr x y ∨ ins = .shl x y) ∨
    (∃ x y n, ins = .drw x y n) ∨ ins = .loadRegs 15 ∨
    (∃ kk, ins = .ldImm 15 kk ∨ ins = .addImm 15 kk ∨ ins = .rnd 15 kk) ∨
    (∃ y, ins = .ldReg 15 y ∨ ins = .orReg 15 y ∨ ins = .andReg 15 y ∨ ins = .xorReg 15 y) ∨ ins = .ldVxDt 15

/-- The engine samples `keys` only when a key skip executes (R22) and draws `rnd` only when `Cxkk` does (R24): every other
instruction does the same whatever the host has put on these inputs. -/
def Obligations.InputsMatterOnlyWhereSampled : Prop :=
  ∀ (ins : Instr) (s t : State) (keys : List (BitVec 16)) (draws : List Byte), exec ins s = .next t →
    ((∀ x, ins ≠ .skp x ∧ ins ≠ .sknp x) → exec ins { s with keysIn := keys } = .next { t with keysIn := keys }) ∧
    ((∀ x kk, ins ≠ .rnd x kk) → exec ins { s with rndIn := draws } = .next { t with rndIn := draws })

/-! ## Memory and invariants -/

/-- Memories in canonical form that read alike at every address `0x000..0xFFF` (R40) are the same data: the form has one list for
each content (the model's own form, log 10). -/
def Obligations.EqualBytesMakeEqualMemories : Prop :=
  ∀ m m' : Memory, m.wf → m'.wf → (∀ a, a ≤ 0xFFF → m.read a = m'.read a) → m = m'

/-- The invariant of R30, with the model's own clauses on the memory's form (log 10) and the cycles left (log 15), holds at every
launch: after `reset`, whatever the host will do and supply (logs 2 to 4 and 11). -/
def Obligations.LaunchStatesHoldTheInvariant : Prop :=
  ∀ (ops : List HostOp) (keys : List (BitVec 16)) (draws : List Byte), (launch ops keys draws).Inv

/-- Every step of the machine, from any state whatever with the invariant of R30, keeps it: memory canonical, `0 <= SP <= 48`, the
latch's cause in its range, never suspended and halted at once. -/
def Obligations.EveryStepKeepsTheInvariant : Prop :=
  ∀ s t : State, s.Inv → step s = .next t → t.Inv

/-- The invariants of R30 "hold in every state reachable from `reset` by the operations of this spec", and with them the canonical
form of memory, which is the model's own (log 10). The runs begin at the model's launch states: after `reset`, with any operations
of the host waiting (logs 2 and 11) and any inputs supplied (logs 3 and 4). -/
def Obligations.ReachableStatesHoldTheInvariant : Prop :=
  ∀ s : State, Reachable s → s.sp.toNat ≤ 48 ∧ s.mem.wf ∧ (s.fault = false → s.faultCause = 0#3) ∧
    (s.fault = true → 1 ≤ s.faultCause.toNat ∧ s.faultCause.toNat ≤ 5) ∧ ¬(s.wait = true ∧ s.fault = true)
end

