-- ==== Sys2Proof/Laws/Memory.lean ====
section
/-! SUPPORT. The laws of the memory operations: what a read gives after a write, that every write keeps the canonical form, and
that equal canonical memories are equal lists. -/
namespace Sys2Proof.Machine

@[simp] theorem Memory.read_nil (a : Nat) : Memory.read [] a = resetByte a := rfl

@[simp] theorem Memory.read_cons (k : Nat) (b : Byte) (m : Memory) (a : Nat) :
    Memory.read ((k, b) :: m) a = if k = a then b else m.read a := rfl

theorem resetByte_of_le (a : Nat) (h : 0x50 ≤ a) : resetByte a = 0x00#8 := by
  have : font.length ≤ a := by simpa [font] using h
  simp [resetByte, List.getD_eq_getElem?_getD, List.getElem?_eq_none this]

theorem Memory.read_filter_ne (m : Memory) (a b : Nat) (h : b ≠ a) :
    Memory.read (m.filter (fun c => c.1 != a)) b = m.read b := by
  induction m with
  | nil => rfl
  | cons c m ih =>
    obtain ⟨k, v⟩ := c
    by_cases hk : k = a
    · simp [hk, ih, Ne.symm h]
    · simp [hk, ih]

theorem Memory.read_filter_self (m : Memory) (a : Nat) :
    Memory.read (m.filter (fun c => c.1 != a)) a = resetByte a := by
  induction m with
  | nil => rfl
  | cons c m ih =>
    obtain ⟨k, v⟩ := c
    by_cases hk : k = a <;> simp [hk, ih]

theorem Memory.read_insert (c : Host.Cell) (m : Memory) (a : Nat) (h : ∀ d ∈ m, d.1 ≠ c.1) :
    Memory.read (Memory.insert c m) a = if c.1 = a then c.2 else m.read a := by
  induction m with
  | nil => rfl
  | cons d m ih =>
    have ih := ih (fun e he => h e (List.mem_cons_of_mem _ he))
    have hd := h d (List.mem_cons_self ..)
    by_cases hlt : c.1 < d.1
    · simp [Memory.insert, hlt, Memory.read]
    · rw [Memory.insert, if_neg hlt]
      by_cases hc : c.1 = a
      · simp [Memory.read, ih, hc, hc ▸ hd]
      · simp [Memory.read, ih, hc]

/-- Read after write: the byte written, every other one as before (R49). -/
@[simp] theorem Memory.read_write (m : Memory) (a : Nat) (v : Byte) (b : Nat) :
    (m.write a v).read b = if b = a then v else m.read b := by
  have hout : ∀ d ∈ m.filter (fun c => c.1 != a), d.1 ≠ a := by simp
  unfold Memory.write
  by_cases hv : v = resetByte a
  · by_cases hb : b = a
    · subst hb; simp [← hv, Memory.read_filter_self]
    · simp [← hv, hb, Memory.read_filter_ne m a b hb]
  · by_cases hb : b = a
    · subst hb; simp [hv, Memory.read_insert (b, v) _ b hout]
    · simp [hv, hb, Memory.read_insert (a, v) _ b hout, Ne.symm hb, Memory.read_filter_ne m a b hb]

/-- What a run of byte writes leaves: the bytes of the list in order, every other one as before. -/
theorem Memory.read_writeBytes (m : Memory) (a : Nat) (bs : List Byte) (b : Nat) :
    (m.writeBytes a bs).read b = if a ≤ b then (bs[b - a]?).getD (m.read b) else m.read b := by
  induction bs generalizing m a with
  | nil => simp [Memory.writeBytes]
  | cons v bs ih =>
    rw [Memory.writeBytes, ih, Memory.read_write]
    by_cases h1 : a + 1 ≤ b
    · have h2 : b - a = (b - (a + 1)) + 1 := by omega
      have h3 : b ≠ a := by omega
      have h4 : a ≤ b := by omega
      simp [h1, h2, h3, h4]
    · by_cases h2 : b = a
      · subst h2; simp
      · have h3 : ¬ a ≤ b := by omega
        simp [h1, h2, h3]

theorem Memory.read_writeBytes_outside (m : Memory) (a : Nat) (bs : List Byte) (b : Nat)
    (h : b < a ∨ a + bs.length ≤ b) : (m.writeBytes a bs).read b = m.read b := by
  rw [Memory.read_writeBytes]
  split
  · rw [List.getElem?_eq_none (by omega)]; rfl
  · rfl

theorem Memory.read_writeBytes_inside (m : Memory) (a : Nat) (bs : List Byte) (k : Nat) (h : k < bs.length) :
    (m.writeBytes a bs).read (a + k) = bs[k] := by
  simp [Memory.read_writeBytes, h]

@[simp] theorem bytesOfWord_length (w : Word) : (bytesOfWord w).length = 2 := rfl

theorem wordOfBytes_bytes (w : Word) : wordOfBytes (w.extractLsb' 8 8) (w.extractLsb' 0 8) = w := by
  apply BitVec.eq_of_getLsbD_eq
  intro k hk
  unfold wordOfBytes
  rw [BitVec.getLsbD_append]
  by_cases h : k < 8
  · simp [h]
  · have : k - 8 < 8 := by omega
    have h8 : 8 + (k - 8) = k := by omega
    simp [h, this, h8]

/-- A word written is the word read back, byte order and all (R42). -/
@[simp] theorem Memory.readWord_writeWord (m : Memory) (a : Nat) (w : Word) : (m.writeWord a w).readWord a = w := by
  simp [Memory.readWord, Memory.writeWord, bytesOfWord, Memory.writeBytes, wordOfBytes_bytes]

/-- What restoring a range leaves: its bytes as `reset` has them, every other one as before. -/
theorem Memory.read_restore (m : Memory) (a n b : Nat) :
    (m.restore a n).read b = if a ≤ b ∧ b < a + n then resetByte b else m.read b := by
  induction m with
  | nil => simp [Memory.restore]
  | cons c m ih =>
    obtain ⟨k, v⟩ := c
    unfold Memory.restore at ih ⊢
    by_cases hk : k < a ∨ a + n ≤ k
    · rw [List.filter_cons_of_pos (by simpa using hk), Memory.read_cons, Memory.read_cons, ih]
      by_cases hb : k = b
      · rw [if_pos hb, if_neg (by omega)]; simp [hb]
      · simp [hb]
    · rw [List.filter_cons_of_neg (by simpa using hk), ih, Memory.read_cons]
      by_cases hb : k = b
      · rw [if_pos (by omega), if_pos (by omega)]
      · simp [hb]

/-- Above the font, restored bytes are zero: video memory after clear screen (R160). -/
theorem Memory.read_restore_inside (m : Memory) (a n b : Nat) (hf : 0x50 ≤ a) (h : a ≤ b ∧ b < a + n) :
    (m.restore a n).read b = 0x00#8 := by
  rw [Memory.read_restore, if_pos h, resetByte_of_le b (by omega)]

theorem Memory.read_restore_outside (m : Memory) (a n b : Nat) (h : b < a ∨ a + n ≤ b) :
    (m.restore a n).read b = m.read b := by
  rw [Memory.read_restore, if_neg (by omega)]

theorem Memory.read_writeWord_outside (m : Memory) (a : Nat) (w : Word) (b : Nat) (h : b < a ∨ a + 2 ≤ b) :
    (m.writeWord a w).read b = m.read b :=
  Memory.read_writeBytes_outside m a _ b (by simpa using h)

@[simp] theorem Memory.readBytes_length (m : Memory) (a n : Nat) : (m.readBytes a n).length = n := by
  simp [Memory.readBytes]

theorem Memory.readBytes_getElem? (m : Memory) (a n k : Nat) (h : k < n) :
    (m.readBytes a n)[k]? = some (m.read (a + k)) := by
  simp [Memory.readBytes, h]

/-! ## The canonical form -/

theorem Memory.wf_nil : Memory.wf [] := by decide

theorem Memory.wf_filter (m : Memory) (a : Nat) (h : m.wf) : Memory.wf (m.filter (fun c => c.1 != a)) :=
  ⟨h.1.filter _, fun c hc => h.2 c (List.mem_of_mem_filter hc)⟩

theorem Memory.wf_restore (m : Memory) (a n : Nat) (h : m.wf) : (m.restore a n).wf :=
  ⟨h.1.filter _, fun c hc => h.2 c (List.mem_of_mem_filter hc)⟩

theorem Memory.mem_insert (c d : Host.Cell) (m : Memory) : d ∈ Memory.insert c m ↔ d = c ∨ d ∈ m := by
  induction m with
  | nil => simp [Memory.insert]
  | cons e m ih =>
    by_cases h : c.1 < e.1
    · simp [Memory.insert, h]
    · simp only [Memory.insert, h, if_false, List.mem_cons, ih]; tauto

theorem Memory.wf_insert (c : Host.Cell) (m : Memory) (h : m.wf) (ha : c.1 ≤ Config.memLast)
    (hc : c.2 ≠ resetByte c.1) (hne : ∀ d ∈ m, d.1 ≠ c.1) : Memory.wf (Memory.insert c m) := by
  refine ⟨?_, fun d hd => ?_⟩
  · induction m with
    | nil => simp [Memory.insert]
    | cons e m ih =>
      obtain ⟨hsort, hin⟩ := h
      rw [List.pairwise_cons] at hsort
      by_cases hlt : c.1 < e.1
      · simp only [Memory.insert, hlt, if_true, List.pairwise_cons]
        refine ⟨fun d hd => ?_, hsort⟩
        rcases List.mem_cons.1 hd with rfl | hd
        · exact hlt
        · exact hlt.trans (hsort.1 d hd)
      · simp only [Memory.insert, hlt, if_false, List.pairwise_cons]
        refine ⟨fun d hd => ?_, ih ⟨hsort.2, fun d hd => hin d (List.mem_cons_of_mem _ hd)⟩
          (fun d hd => hne d (List.mem_cons_of_mem _ hd))⟩
        rcases (Memory.mem_insert c d m).1 hd with rfl | hd
        · have := hne e (List.mem_cons_self ..); omega
        · exact hsort.1 d hd
  · rcases (Memory.mem_insert c d m).1 hd with rfl | hd
    · exact ⟨ha, hc⟩
    · exact h.2 d hd

/-- A write inside the address space keeps the canonical form. -/
theorem Memory.wf_write (m : Memory) (a : Nat) (v : Byte) (h : m.wf) (ha : a ≤ Config.memLast) : (m.write a v).wf := by
  unfold Memory.write
  by_cases hv : v = resetByte a
  · simpa only [hv, if_true] using Memory.wf_filter m a h
  · simp only [hv, if_false]
    exact Memory.wf_insert _ _ (Memory.wf_filter m a h) ha hv (by simp)

/-- A run of byte writes inside the address space keeps the canonical form. -/
theorem Memory.wf_writeBytes (m : Memory) (a : Nat) (bs : List Byte) (h : m.wf)
    (ha : a + bs.length ≤ Config.memLast + 1) : (m.writeBytes a bs).wf := by
  induction bs generalizing m a with
  | nil => exact h
  | cons v bs ih =>
    simp only [List.length_cons] at ha
    exact ih _ _ (Memory.wf_write m a v h (by omega)) (by omega)

theorem Memory.wf_writeWord (m : Memory) (a : Nat) (w : Word) (h : m.wf) (ha : a + 2 ≤ Config.memLast + 1) :
    (m.writeWord a w).wf := Memory.wf_writeBytes m a _ h (by simpa using ha)

end Sys2Proof.Machine
end

