-- ==== Sys2Proof/Laws/State.lean ====
section
/-! SUPPORT. For each operation that updates the state, one lemma per field: what the field is afterwards. With these no proof
unfolds a record update. -/
namespace Sys2Proof.Machine

/-! ## `V[x] <- b` -/

@[simp] theorem State.setV_mem (s : State) (x : Reg) (b : Byte) : (s.setV x b).mem = s.mem := rfl
@[simp] theorem State.setV_v (s : State) (x : Reg) (b : Byte) : (s.setV x b).v = s.v.set x b := rfl
@[simp] theorem State.setV_i (s : State) (x : Reg) (b : Byte) : (s.setV x b).i = s.i := rfl
@[simp] theorem State.setV_pc (s : State) (x : Reg) (b : Byte) : (s.setV x b).pc = s.pc := rfl
@[simp] theorem State.setV_sp (s : State) (x : Reg) (b : Byte) : (s.setV x b).sp = s.sp := rfl
@[simp] theorem State.setV_dt (s : State) (x : Reg) (b : Byte) : (s.setV x b).dt = s.dt := rfl
@[simp] theorem State.setV_st (s : State) (x : Reg) (b : Byte) : (s.setV x b).st = s.st := rfl
@[simp] theorem State.setV_wait (s : State) (x : Reg) (b : Byte) : (s.setV x b).wait = s.wait := rfl
@[simp] theorem State.setV_waitReg (s : State) (x : Reg) (b : Byte) : (s.setV x b).waitReg = s.waitReg := rfl
@[simp] theorem State.setV_fault (s : State) (x : Reg) (b : Byte) : (s.setV x b).fault = s.fault := rfl
@[simp] theorem State.setV_faultCause (s : State) (x : Reg) (b : Byte) : (s.setV x b).faultCause = s.faultCause := rfl
@[simp] theorem State.setV_faultPc (s : State) (x : Reg) (b : Byte) : (s.setV x b).faultPc = s.faultPc := rfl
@[simp] theorem State.setV_faultOpcode (s : State) (x : Reg) (b : Byte) : (s.setV x b).faultOpcode = s.faultOpcode := rfl
@[simp] theorem State.setV_faultAddr (s : State) (x : Reg) (b : Byte) : (s.setV x b).faultAddr = s.faultAddr := rfl
@[simp] theorem State.setV_cyclesLeft (s : State) (x : Reg) (b : Byte) : (s.setV x b).cyclesLeft = s.cyclesLeft := rfl
@[simp] theorem State.setV_hostOps (s : State) (x : Reg) (b : Byte) : (s.setV x b).hostOps = s.hostOps := rfl
@[simp] theorem State.setV_keysIn (s : State) (x : Reg) (b : Byte) : (s.setV x b).keysIn = s.keysIn := rfl
@[simp] theorem State.setV_keysCount (s : State) (x : Reg) (b : Byte) : (s.setV x b).keysCount = s.keysCount := rfl
@[simp] theorem State.setV_rndIn (s : State) (x : Reg) (b : Byte) : (s.setV x b).rndIn = s.rndIn := rfl
@[simp] theorem State.setV_rndCount (s : State) (x : Reg) (b : Byte) : (s.setV x b).rndCount = s.rndCount := rfl
@[simp] theorem State.setV_events (s : State) (x : Reg) (b : Byte) : (s.setV x b).events = s.events := rfl

/-! ## The fetch advance -/

@[simp] theorem State.advance_mem (s : State) : (s.advance).mem = s.mem := rfl
@[simp] theorem State.advance_v (s : State) : (s.advance).v = s.v := rfl
@[simp] theorem State.advance_i (s : State) : (s.advance).i = s.i := rfl
@[simp] theorem State.advance_pc (s : State) : (s.advance).pc = s.pc + 2#16 := rfl
@[simp] theorem State.advance_sp (s : State) : (s.advance).sp = s.sp := rfl
@[simp] theorem State.advance_dt (s : State) : (s.advance).dt = s.dt := rfl
@[simp] theorem State.advance_st (s : State) : (s.advance).st = s.st := rfl
@[simp] theorem State.advance_wait (s : State) : (s.advance).wait = s.wait := rfl
@[simp] theorem State.advance_waitReg (s : State) : (s.advance).waitReg = s.waitReg := rfl
@[simp] theorem State.advance_fault (s : State) : (s.advance).fault = s.fault := rfl
@[simp] theorem State.advance_faultCause (s : State) : (s.advance).faultCause = s.faultCause := rfl
@[simp] theorem State.advance_faultPc (s : State) : (s.advance).faultPc = s.faultPc := rfl
@[simp] theorem State.advance_faultOpcode (s : State) : (s.advance).faultOpcode = s.faultOpcode := rfl
@[simp] theorem State.advance_faultAddr (s : State) : (s.advance).faultAddr = s.faultAddr := rfl
@[simp] theorem State.advance_cyclesLeft (s : State) : (s.advance).cyclesLeft = s.cyclesLeft := rfl
@[simp] theorem State.advance_hostOps (s : State) : (s.advance).hostOps = s.hostOps := rfl
@[simp] theorem State.advance_keysIn (s : State) : (s.advance).keysIn = s.keysIn := rfl
@[simp] theorem State.advance_keysCount (s : State) : (s.advance).keysCount = s.keysCount := rfl
@[simp] theorem State.advance_rndIn (s : State) : (s.advance).rndIn = s.rndIn := rfl
@[simp] theorem State.advance_rndCount (s : State) : (s.advance).rndCount = s.rndCount := rfl
@[simp] theorem State.advance_events (s : State) : (s.advance).events = s.events := rfl

/-! ## An output event -/

@[simp] theorem State.emit_mem (s : State) (e : Event) : (s.emit e).mem = s.mem := rfl
@[simp] theorem State.emit_v (s : State) (e : Event) : (s.emit e).v = s.v := rfl
@[simp] theorem State.emit_i (s : State) (e : Event) : (s.emit e).i = s.i := rfl
@[simp] theorem State.emit_pc (s : State) (e : Event) : (s.emit e).pc = s.pc := rfl
@[simp] theorem State.emit_sp (s : State) (e : Event) : (s.emit e).sp = s.sp := rfl
@[simp] theorem State.emit_dt (s : State) (e : Event) : (s.emit e).dt = s.dt := rfl
@[simp] theorem State.emit_st (s : State) (e : Event) : (s.emit e).st = s.st := rfl
@[simp] theorem State.emit_wait (s : State) (e : Event) : (s.emit e).wait = s.wait := rfl
@[simp] theorem State.emit_waitReg (s : State) (e : Event) : (s.emit e).waitReg = s.waitReg := rfl
@[simp] theorem State.emit_fault (s : State) (e : Event) : (s.emit e).fault = s.fault := rfl
@[simp] theorem State.emit_faultCause (s : State) (e : Event) : (s.emit e).faultCause = s.faultCause := rfl
@[simp] theorem State.emit_faultPc (s : State) (e : Event) : (s.emit e).faultPc = s.faultPc := rfl
@[simp] theorem State.emit_faultOpcode (s : State) (e : Event) : (s.emit e).faultOpcode = s.faultOpcode := rfl
@[simp] theorem State.emit_faultAddr (s : State) (e : Event) : (s.emit e).faultAddr = s.faultAddr := rfl
@[simp] theorem State.emit_cyclesLeft (s : State) (e : Event) : (s.emit e).cyclesLeft = s.cyclesLeft := rfl
@[simp] theorem State.emit_hostOps (s : State) (e : Event) : (s.emit e).hostOps = s.hostOps := rfl
@[simp] theorem State.emit_keysIn (s : State) (e : Event) : (s.emit e).keysIn = s.keysIn := rfl
@[simp] theorem State.emit_keysCount (s : State) (e : Event) : (s.emit e).keysCount = s.keysCount := rfl
@[simp] theorem State.emit_rndIn (s : State) (e : Event) : (s.emit e).rndIn = s.rndIn := rfl
@[simp] theorem State.emit_rndCount (s : State) (e : Event) : (s.emit e).rndCount = s.rndCount := rfl
@[simp] theorem State.emit_events (s : State) (e : Event) : (s.emit e).events = e :: s.events := rfl

/-! ## The fault latch -/

@[simp] theorem State.latch_mem (s : State) (c : Cause) (a op : Word) : (s.latch c a op).mem = s.mem := rfl
@[simp] theorem State.latch_v (s : State) (c : Cause) (a op : Word) : (s.latch c a op).v = s.v := rfl
@[simp] theorem State.latch_i (s : State) (c : Cause) (a op : Word) : (s.latch c a op).i = s.i := rfl
@[simp] theorem State.latch_pc (s : State) (c : Cause) (a op : Word) : (s.latch c a op).pc = s.pc := rfl
@[simp] theorem State.latch_sp (s : State) (c : Cause) (a op : Word) : (s.latch c a op).sp = s.sp := rfl
@[simp] theorem State.latch_dt (s : State) (c : Cause) (a op : Word) : (s.latch c a op).dt = s.dt := rfl
@[simp] theorem State.latch_st (s : State) (c : Cause) (a op : Word) : (s.latch c a op).st = s.st := rfl
@[simp] theorem State.latch_wait (s : State) (c : Cause) (a op : Word) : (s.latch c a op).wait = s.wait := rfl
@[simp] theorem State.latch_waitReg (s : State) (c : Cause) (a op : Word) : (s.latch c a op).waitReg = s.waitReg := rfl
@[simp] theorem State.latch_fault (s : State) (c : Cause) (a op : Word) : (s.latch c a op).fault = true := rfl
@[simp] theorem State.latch_faultCause (s : State) (c : Cause) (a op : Word) : (s.latch c a op).faultCause = causeCode c := rfl
@[simp] theorem State.latch_faultPc (s : State) (c : Cause) (a op : Word) : (s.latch c a op).faultPc = a := rfl
@[simp] theorem State.latch_faultOpcode (s : State) (c : Cause) (a op : Word) : (s.latch c a op).faultOpcode = op := rfl
@[simp] theorem State.latch_faultAddr (s : State) (c : Cause) (a op : Word) : (s.latch c a op).faultAddr = causeAddr c := rfl
@[simp] theorem State.latch_cyclesLeft (s : State) (c : Cause) (a op : Word) : (s.latch c a op).cyclesLeft = s.cyclesLeft := rfl
@[simp] theorem State.latch_hostOps (s : State) (c : Cause) (a op : Word) : (s.latch c a op).hostOps = s.hostOps := rfl
@[simp] theorem State.latch_keysIn (s : State) (c : Cause) (a op : Word) : (s.latch c a op).keysIn = s.keysIn := rfl
@[simp] theorem State.latch_keysCount (s : State) (c : Cause) (a op : Word) : (s.latch c a op).keysCount = s.keysCount := rfl
@[simp] theorem State.latch_rndIn (s : State) (c : Cause) (a op : Word) : (s.latch c a op).rndIn = s.rndIn := rfl
@[simp] theorem State.latch_rndCount (s : State) (c : Cause) (a op : Word) : (s.latch c a op).rndCount = s.rndCount := rfl
@[simp] theorem State.latch_events (s : State) (c : Cause) (a op : Word) : (s.latch c a op).events = s.events := rfl

/-! ## A fault raised by an instruction -/

@[simp] theorem State.raise_mem (s : State) (c : Cause) (ins : Instr) : (s.raise c ins).mem = s.mem := rfl
@[simp] theorem State.raise_v (s : State) (c : Cause) (ins : Instr) : (s.raise c ins).v = s.v := rfl
@[simp] theorem State.raise_i (s : State) (c : Cause) (ins : Instr) : (s.raise c ins).i = s.i := rfl
@[simp] theorem State.raise_pc (s : State) (c : Cause) (ins : Instr) : (s.raise c ins).pc = s.pc := rfl
@[simp] theorem State.raise_sp (s : State) (c : Cause) (ins : Instr) : (s.raise c ins).sp = s.sp := rfl
@[simp] theorem State.raise_dt (s : State) (c : Cause) (ins : Instr) : (s.raise c ins).dt = s.dt := rfl
@[simp] theorem State.raise_st (s : State) (c : Cause) (ins : Instr) : (s.raise c ins).st = s.st := rfl
@[simp] theorem State.raise_wait (s : State) (c : Cause) (ins : Instr) : (s.raise c ins).wait = s.wait := rfl
@[simp] theorem State.raise_waitReg (s : State) (c : Cause) (ins : Instr) : (s.raise c ins).waitReg = s.waitReg := rfl
@[simp] theorem State.raise_fault (s : State) (c : Cause) (ins : Instr) : (s.raise c ins).fault = true := rfl
@[simp] theorem State.raise_faultCause (s : State) (c : Cause) (ins : Instr) : (s.raise c ins).faultCause = causeCode c := rfl
@[simp] theorem State.raise_faultPc (s : State) (c : Cause) (ins : Instr) : (s.raise c ins).faultPc = s.pc - 2#16 := rfl
@[simp] theorem State.raise_faultOpcode (s : State) (c : Cause) (ins : Instr) : (s.raise c ins).faultOpcode = encode ins := rfl
@[simp] theorem State.raise_faultAddr (s : State) (c : Cause) (ins : Instr) : (s.raise c ins).faultAddr = causeAddr c := rfl
@[simp] theorem State.raise_cyclesLeft (s : State) (c : Cause) (ins : Instr) : (s.raise c ins).cyclesLeft = s.cyclesLeft := rfl
@[simp] theorem State.raise_hostOps (s : State) (c : Cause) (ins : Instr) : (s.raise c ins).hostOps = s.hostOps := rfl
@[simp] theorem State.raise_keysIn (s : State) (c : Cause) (ins : Instr) : (s.raise c ins).keysIn = s.keysIn := rfl
@[simp] theorem State.raise_keysCount (s : State) (c : Cause) (ins : Instr) : (s.raise c ins).keysCount = s.keysCount := rfl
@[simp] theorem State.raise_rndIn (s : State) (c : Cause) (ins : Instr) : (s.raise c ins).rndIn = s.rndIn := rfl
@[simp] theorem State.raise_rndCount (s : State) (c : Cause) (ins : Instr) : (s.raise c ins).rndCount = s.rndCount := rfl
@[simp] theorem State.raise_events (s : State) (c : Cause) (ins : Instr) : (s.raise c ins).events = s.events := rfl

/-! ## `V[0..x]` loaded from memory -/

@[simp] theorem State.loadUpTo_mem (s : State) (x : Reg) (a : Nat) : (s.loadUpTo x a).mem = s.mem := rfl
@[simp] theorem State.loadUpTo_i (s : State) (x : Reg) (a : Nat) : (s.loadUpTo x a).i = s.i := rfl
@[simp] theorem State.loadUpTo_pc (s : State) (x : Reg) (a : Nat) : (s.loadUpTo x a).pc = s.pc := rfl
@[simp] theorem State.loadUpTo_sp (s : State) (x : Reg) (a : Nat) : (s.loadUpTo x a).sp = s.sp := rfl
@[simp] theorem State.loadUpTo_dt (s : State) (x : Reg) (a : Nat) : (s.loadUpTo x a).dt = s.dt := rfl
@[simp] theorem State.loadUpTo_st (s : State) (x : Reg) (a : Nat) : (s.loadUpTo x a).st = s.st := rfl
@[simp] theorem State.loadUpTo_wait (s : State) (x : Reg) (a : Nat) : (s.loadUpTo x a).wait = s.wait := rfl
@[simp] theorem State.loadUpTo_waitReg (s : State) (x : Reg) (a : Nat) : (s.loadUpTo x a).waitReg = s.waitReg := rfl
@[simp] theorem State.loadUpTo_fault (s : State) (x : Reg) (a : Nat) : (s.loadUpTo x a).fault = s.fault := rfl
@[simp] theorem State.loadUpTo_faultCause (s : State) (x : Reg) (a : Nat) : (s.loadUpTo x a).faultCause = s.faultCause := rfl
@[simp] theorem State.loadUpTo_faultPc (s : State) (x : Reg) (a : Nat) : (s.loadUpTo x a).faultPc = s.faultPc := rfl
@[simp] theorem State.loadUpTo_faultOpcode (s : State) (x : Reg) (a : Nat) : (s.loadUpTo x a).faultOpcode = s.faultOpcode := rfl
@[simp] theorem State.loadUpTo_faultAddr (s : State) (x : Reg) (a : Nat) : (s.loadUpTo x a).faultAddr = s.faultAddr := rfl
@[simp] theorem State.loadUpTo_cyclesLeft (s : State) (x : Reg) (a : Nat) : (s.loadUpTo x a).cyclesLeft = s.cyclesLeft := rfl
@[simp] theorem State.loadUpTo_hostOps (s : State) (x : Reg) (a : Nat) : (s.loadUpTo x a).hostOps = s.hostOps := rfl
@[simp] theorem State.loadUpTo_keysIn (s : State) (x : Reg) (a : Nat) : (s.loadUpTo x a).keysIn = s.keysIn := rfl
@[simp] theorem State.loadUpTo_keysCount (s : State) (x : Reg) (a : Nat) : (s.loadUpTo x a).keysCount = s.keysCount := rfl
@[simp] theorem State.loadUpTo_rndIn (s : State) (x : Reg) (a : Nat) : (s.loadUpTo x a).rndIn = s.rndIn := rfl
@[simp] theorem State.loadUpTo_rndCount (s : State) (x : Reg) (a : Nat) : (s.loadUpTo x a).rndCount = s.rndCount := rfl
@[simp] theorem State.loadUpTo_events (s : State) (x : Reg) (a : Nat) : (s.loadUpTo x a).events = s.events := rfl

/-! ## The timer tick -/

@[simp] theorem State.tick_mem (s : State) : (s.tick).mem = s.mem := rfl
@[simp] theorem State.tick_v (s : State) : (s.tick).v = s.v := rfl
@[simp] theorem State.tick_i (s : State) : (s.tick).i = s.i := rfl
@[simp] theorem State.tick_pc (s : State) : (s.tick).pc = s.pc := rfl
@[simp] theorem State.tick_sp (s : State) : (s.tick).sp = s.sp := rfl
@[simp] theorem State.tick_dt (s : State) : (s.tick).dt = countDown s.dt := rfl
@[simp] theorem State.tick_st (s : State) : (s.tick).st = countDown s.st := rfl
@[simp] theorem State.tick_wait (s : State) : (s.tick).wait = s.wait := rfl
@[simp] theorem State.tick_waitReg (s : State) : (s.tick).waitReg = s.waitReg := rfl
@[simp] theorem State.tick_fault (s : State) : (s.tick).fault = s.fault := rfl
@[simp] theorem State.tick_faultCause (s : State) : (s.tick).faultCause = s.faultCause := rfl
@[simp] theorem State.tick_faultPc (s : State) : (s.tick).faultPc = s.faultPc := rfl
@[simp] theorem State.tick_faultOpcode (s : State) : (s.tick).faultOpcode = s.faultOpcode := rfl
@[simp] theorem State.tick_faultAddr (s : State) : (s.tick).faultAddr = s.faultAddr := rfl
@[simp] theorem State.tick_cyclesLeft (s : State) : (s.tick).cyclesLeft = s.cyclesLeft := rfl
@[simp] theorem State.tick_hostOps (s : State) : (s.tick).hostOps = s.hostOps := rfl
@[simp] theorem State.tick_keysIn (s : State) : (s.tick).keysIn = s.keysIn := rfl
@[simp] theorem State.tick_keysCount (s : State) : (s.tick).keysCount = s.keysCount := rfl
@[simp] theorem State.tick_rndIn (s : State) : (s.tick).rndIn = s.rndIn := rfl
@[simp] theorem State.tick_rndCount (s : State) : (s.tick).rndCount = s.rndCount := rfl
@[simp] theorem State.tick_events (s : State) : (s.tick).events = s.events := rfl

/-! ## A flag into `VF` -/

@[simp] theorem State.setVF_mem (s : State) (f : Bool) : (s.setVF f).mem = s.mem := rfl
@[simp] theorem State.setVF_v (s : State) (f : Bool) : (s.setVF f).v = s.v.set vf (flagByte f) := rfl
@[simp] theorem State.setVF_i (s : State) (f : Bool) : (s.setVF f).i = s.i := rfl
@[simp] theorem State.setVF_pc (s : State) (f : Bool) : (s.setVF f).pc = s.pc := rfl
@[simp] theorem State.setVF_sp (s : State) (f : Bool) : (s.setVF f).sp = s.sp := rfl
@[simp] theorem State.setVF_dt (s : State) (f : Bool) : (s.setVF f).dt = s.dt := rfl
@[simp] theorem State.setVF_st (s : State) (f : Bool) : (s.setVF f).st = s.st := rfl
@[simp] theorem State.setVF_wait (s : State) (f : Bool) : (s.setVF f).wait = s.wait := rfl
@[simp] theorem State.setVF_waitReg (s : State) (f : Bool) : (s.setVF f).waitReg = s.waitReg := rfl
@[simp] theorem State.setVF_fault (s : State) (f : Bool) : (s.setVF f).fault = s.fault := rfl
@[simp] theorem State.setVF_faultCause (s : State) (f : Bool) : (s.setVF f).faultCause = s.faultCause := rfl
@[simp] theorem State.setVF_faultPc (s : State) (f : Bool) : (s.setVF f).faultPc = s.faultPc := rfl
@[simp] theorem State.setVF_faultOpcode (s : State) (f : Bool) : (s.setVF f).faultOpcode = s.faultOpcode := rfl
@[simp] theorem State.setVF_faultAddr (s : State) (f : Bool) : (s.setVF f).faultAddr = s.faultAddr := rfl
@[simp] theorem State.setVF_cyclesLeft (s : State) (f : Bool) : (s.setVF f).cyclesLeft = s.cyclesLeft := rfl
@[simp] theorem State.setVF_hostOps (s : State) (f : Bool) : (s.setVF f).hostOps = s.hostOps := rfl
@[simp] theorem State.setVF_keysIn (s : State) (f : Bool) : (s.setVF f).keysIn = s.keysIn := rfl
@[simp] theorem State.setVF_keysCount (s : State) (f : Bool) : (s.setVF f).keysCount = s.keysCount := rfl
@[simp] theorem State.setVF_rndIn (s : State) (f : Bool) : (s.setVF f).rndIn = s.rndIn := rfl
@[simp] theorem State.setVF_rndCount (s : State) (f : Bool) : (s.setVF f).rndCount = s.rndCount := rfl
@[simp] theorem State.setVF_events (s : State) (f : Bool) : (s.setVF f).events = s.events := rfl

/-! ## The skip -/

@[simp] theorem State.skipIf_mem (s : State) (c : Bool) : (s.skipIf c).mem = s.mem := by cases c <;> rfl
@[simp] theorem State.skipIf_v (s : State) (c : Bool) : (s.skipIf c).v = s.v := by cases c <;> rfl
@[simp] theorem State.skipIf_i (s : State) (c : Bool) : (s.skipIf c).i = s.i := by cases c <;> rfl
@[simp] theorem State.skipIf_pc (s : State) (c : Bool) : (s.skipIf c).pc = if c then s.pc + 2#16 else s.pc := by cases c <;> rfl
@[simp] theorem State.skipIf_sp (s : State) (c : Bool) : (s.skipIf c).sp = s.sp := by cases c <;> rfl
@[simp] theorem State.skipIf_dt (s : State) (c : Bool) : (s.skipIf c).dt = s.dt := by cases c <;> rfl
@[simp] theorem State.skipIf_st (s : State) (c : Bool) : (s.skipIf c).st = s.st := by cases c <;> rfl
@[simp] theorem State.skipIf_wait (s : State) (c : Bool) : (s.skipIf c).wait = s.wait := by cases c <;> rfl
@[simp] theorem State.skipIf_waitReg (s : State) (c : Bool) : (s.skipIf c).waitReg = s.waitReg := by cases c <;> rfl
@[simp] theorem State.skipIf_fault (s : State) (c : Bool) : (s.skipIf c).fault = s.fault := by cases c <;> rfl
@[simp] theorem State.skipIf_faultCause (s : State) (c : Bool) : (s.skipIf c).faultCause = s.faultCause := by cases c <;> rfl
@[simp] theorem State.skipIf_faultPc (s : State) (c : Bool) : (s.skipIf c).faultPc = s.faultPc := by cases c <;> rfl
@[simp] theorem State.skipIf_faultOpcode (s : State) (c : Bool) : (s.skipIf c).faultOpcode = s.faultOpcode := by cases c <;> rfl
@[simp] theorem State.skipIf_faultAddr (s : State) (c : Bool) : (s.skipIf c).faultAddr = s.faultAddr := by cases c <;> rfl
@[simp] theorem State.skipIf_cyclesLeft (s : State) (c : Bool) : (s.skipIf c).cyclesLeft = s.cyclesLeft := by cases c <;> rfl
@[simp] theorem State.skipIf_hostOps (s : State) (c : Bool) : (s.skipIf c).hostOps = s.hostOps := by cases c <;> rfl
@[simp] theorem State.skipIf_keysIn (s : State) (c : Bool) : (s.skipIf c).keysIn = s.keysIn := by cases c <;> rfl
@[simp] theorem State.skipIf_keysCount (s : State) (c : Bool) : (s.skipIf c).keysCount = s.keysCount := by cases c <;> rfl
@[simp] theorem State.skipIf_rndIn (s : State) (c : Bool) : (s.skipIf c).rndIn = s.rndIn := by cases c <;> rfl
@[simp] theorem State.skipIf_rndCount (s : State) (c : Bool) : (s.skipIf c).rndCount = s.rndCount := by cases c <;> rfl
@[simp] theorem State.skipIf_events (s : State) (c : Bool) : (s.skipIf c).events = s.events := by cases c <;> rfl

/-! ## One draw of `rnd` used up -/

@[simp] theorem State.takeRnd_mem (s : State) : s.takeRnd.mem = s.mem := by unfold State.takeRnd; split <;> rfl
@[simp] theorem State.takeRnd_v (s : State) : s.takeRnd.v = s.v := by unfold State.takeRnd; split <;> rfl
@[simp] theorem State.takeRnd_i (s : State) : s.takeRnd.i = s.i := by unfold State.takeRnd; split <;> rfl
@[simp] theorem State.takeRnd_pc (s : State) : s.takeRnd.pc = s.pc := by unfold State.takeRnd; split <;> rfl
@[simp] theorem State.takeRnd_sp (s : State) : s.takeRnd.sp = s.sp := by unfold State.takeRnd; split <;> rfl
@[simp] theorem State.takeRnd_dt (s : State) : s.takeRnd.dt = s.dt := by unfold State.takeRnd; split <;> rfl
@[simp] theorem State.takeRnd_st (s : State) : s.takeRnd.st = s.st := by unfold State.takeRnd; split <;> rfl
@[simp] theorem State.takeRnd_wait (s : State) : s.takeRnd.wait = s.wait := by unfold State.takeRnd; split <;> rfl
@[simp] theorem State.takeRnd_waitReg (s : State) : s.takeRnd.waitReg = s.waitReg := by unfold State.takeRnd; split <;> rfl
@[simp] theorem State.takeRnd_fault (s : State) : s.takeRnd.fault = s.fault := by unfold State.takeRnd; split <;> rfl
@[simp] theorem State.takeRnd_faultCause (s : State) : s.takeRnd.faultCause = s.faultCause := by unfold State.takeRnd; split <;> rfl
@[simp] theorem State.takeRnd_faultPc (s : State) : s.takeRnd.faultPc = s.faultPc := by unfold State.takeRnd; split <;> rfl
@[simp] theorem State.takeRnd_faultOpcode (s : State) : s.takeRnd.faultOpcode = s.faultOpcode := by unfold State.takeRnd; split <;> rfl
@[simp] theorem State.takeRnd_faultAddr (s : State) : s.takeRnd.faultAddr = s.faultAddr := by unfold State.takeRnd; split <;> rfl
@[simp] theorem State.takeRnd_cyclesLeft (s : State) : s.takeRnd.cyclesLeft = s.cyclesLeft := by unfold State.takeRnd; split <;> rfl
@[simp] theorem State.takeRnd_hostOps (s : State) : s.takeRnd.hostOps = s.hostOps := by unfold State.takeRnd; split <;> rfl
@[simp] theorem State.takeRnd_keysIn (s : State) : s.takeRnd.keysIn = s.keysIn := by unfold State.takeRnd; split <;> rfl
@[simp] theorem State.takeRnd_keysCount (s : State) : s.takeRnd.keysCount = s.keysCount := by unfold State.takeRnd; split <;> rfl
@[simp] theorem State.takeRnd_events (s : State) : s.takeRnd.events = s.events := by unfold State.takeRnd; split <;> rfl

/-! ## One sample of `keys` used up -/

@[simp] theorem State.takeKeys_mem (s : State) : s.takeKeys.mem = s.mem := by unfold State.takeKeys; split <;> rfl
@[simp] theorem State.takeKeys_v (s : State) : s.takeKeys.v = s.v := by unfold State.takeKeys; split <;> rfl
@[simp] theorem State.takeKeys_i (s : State) : s.takeKeys.i = s.i := by unfold State.takeKeys; split <;> rfl
@[simp] theorem State.takeKeys_pc (s : State) : s.takeKeys.pc = s.pc := by unfold State.takeKeys; split <;> rfl
@[simp] theorem State.takeKeys_sp (s : State) : s.takeKeys.sp = s.sp := by unfold State.takeKeys; split <;> rfl
@[simp] theorem State.takeKeys_dt (s : State) : s.takeKeys.dt = s.dt := by unfold State.takeKeys; split <;> rfl
@[simp] theorem State.takeKeys_st (s : State) : s.takeKeys.st = s.st := by unfold State.takeKeys; split <;> rfl
@[simp] theorem State.takeKeys_wait (s : State) : s.takeKeys.wait = s.wait := by unfold State.takeKeys; split <;> rfl
@[simp] theorem State.takeKeys_waitReg (s : State) : s.takeKeys.waitReg = s.waitReg := by unfold State.takeKeys; split <;> rfl
@[simp] theorem State.takeKeys_fault (s : State) : s.takeKeys.fault = s.fault := by unfold State.takeKeys; split <;> rfl
@[simp] theorem State.takeKeys_faultCause (s : State) : s.takeKeys.faultCause = s.faultCause := by unfold State.takeKeys; split <;> rfl
@[simp] theorem State.takeKeys_faultPc (s : State) : s.takeKeys.faultPc = s.faultPc := by unfold State.takeKeys; split <;> rfl
@[simp] theorem State.takeKeys_faultOpcode (s : State) : s.takeKeys.faultOpcode = s.faultOpcode := by unfold State.takeKeys; split <;> rfl
@[simp] theorem State.takeKeys_faultAddr (s : State) : s.takeKeys.faultAddr = s.faultAddr := by unfold State.takeKeys; split <;> rfl
@[simp] theorem State.takeKeys_cyclesLeft (s : State) : s.takeKeys.cyclesLeft = s.cyclesLeft := by unfold State.takeKeys; split <;> rfl
@[simp] theorem State.takeKeys_hostOps (s : State) : s.takeKeys.hostOps = s.hostOps := by unfold State.takeKeys; split <;> rfl
@[simp] theorem State.takeKeys_rndIn (s : State) : s.takeKeys.rndIn = s.rndIn := by unfold State.takeKeys; split <;> rfl
@[simp] theorem State.takeKeys_rndCount (s : State) : s.takeKeys.rndCount = s.rndCount := by unfold State.takeKeys; split <;> rfl
@[simp] theorem State.takeKeys_events (s : State) : s.takeKeys.events = s.events := by unfold State.takeKeys; split <;> rfl

end Sys2Proof.Machine
end

