-- ==== Sys2Proof/Laws/Ops.lean ====
section
/-! SUPPORT. One lemma for each shared operation over registers, operands, faults and the cycle: everything it can do. -/
namespace Sys2Proof.Machine

/-! ## Registers -/

/-- Register read after register write (R11). -/
@[simp] theorem State.getV_setV (s : State) (x y : Reg) (b : Byte) :
    (s.setV x b).getV y = if y = x then b else s.getV y := by
  simp only [State.getV, State.setV, Fin.getElem_fin, Vector.getElem_set, Fin.ext_iff, eq_comm]

/-- `VF` is register 15 and holds 0 or 1 after a flag write; the others stay (R12). -/
@[simp] theorem State.getV_setVF (s : State) (f : Bool) (y : Reg) :
    (s.setVF f).getV y = if y = 15 then flagByte f else s.getV y := State.getV_setV s vf y _

/-- The flag write comes last: with `x = 15` the result is lost (R121). -/
@[simp] theorem State.getV_setResultThenFlag (s : State) (x : Reg) (r : Byte) (f : Bool) (y : Reg) :
    (s.setResultThenFlag x r f).getV y = if y = 15 then flagByte f else if y = x then r else s.getV y := by
  simp [State.setResultThenFlag]

/-- A flag write changes registers only. -/
theorem State.setResultThenFlag_eq (s : State) (x : Reg) (r : Byte) (f : Bool) :
    s.setResultThenFlag x r f = { s with v := (s.setResultThenFlag x r f).v } := rfl

@[simp] theorem flagByte_toNat (f : Bool) : (flagByte f).toNat = if f then 1 else 0 := by cases f <;> rfl

/-- Two register files that read alike are equal. -/
theorem State.v_ext {s t : State} (h : ∀ r, s.getV r = t.getV r) : s.v = t.v :=
  Vector.ext fun k hk => h ⟨k, hk⟩

@[simp] theorem State.regsUpTo_length (s : State) (x : Reg) : (s.regsUpTo x).length = x.val + 1 := by
  simp only [State.regsUpTo, List.length_take, Vector.length_toList]; omega

/-- Byte `r` of the block that `Fx55` stores is `V[r]` (R144). -/
theorem State.regsUpTo_getElem? (s : State) (x r : Reg) (h : r ≤ x) : (s.regsUpTo x)[r.val]? = some (s.getV r) := by
  have h1 : r.val < x.val + 1 := Nat.lt_succ_of_le h
  rw [State.regsUpTo, List.getElem?_take_of_lt h1, List.getElem?_eq_getElem (by simp)]
  simp [State.getV]

/-- `Fx65` writes `V[0..x]` and no other register (R145). -/
@[simp] theorem State.getV_loadUpTo (s : State) (x : Reg) (a : Nat) (r : Reg) :
    (s.loadUpTo x a).getV r = if r ≤ x then s.mem.read (a + r.val) else s.getV r := by
  simp [State.loadUpTo, State.getV]

/-! ## Skips -/

/-- A skip writes PC only, and only when it is taken (spec/41_flow.md section 2). -/
theorem State.skipIf_eq (s : State) (c : Bool) : s.skipIf c = { s with pc := if c then s.pc + 2#16 else s.pc } := by
  cases c <;> rfl

/-! ## Inputs -/

/-- Taking a sample writes the two fields of the `keys` input only (R22). -/
theorem State.takeKeys_eq (s : State) :
    s.takeKeys = { s with keysIn := s.takeKeys.keysIn, keysCount := s.takeKeys.keysCount } := by
  unfold State.takeKeys; split <;> rfl

/-- Taking a draw writes the two fields of the `rnd` input only (R24). -/
theorem State.takeRnd_eq (s : State) :
    s.takeRnd = { s with rndIn := s.takeRnd.rndIn, rndCount := s.takeRnd.rndCount } := by
  unfold State.takeRnd; split <;> rfl

/-- A supplied draw is the draw, and is used up (R24). -/
theorem State.draw_supplied (s : State) (b : Byte) (rest : List Byte) (h : s.rndIn = b :: rest) :
    s.rndByte = b ∧ s.takeRnd = { s with rndIn := rest } := by
  simp [State.rndByte, State.takeRnd, h]

/-- With none supplied the draw is a free value, and the next one is another (R24). -/
theorem State.draw_free (s : State) (h : s.rndIn = []) :
    s.rndByte = Config.freeRnd s.rndCount ∧ s.takeRnd = { s with rndCount := s.rndCount + 1 } := by
  simp [State.rndByte, State.takeRnd, h]

/-- A supplied sample is the sample, and is used up (R22). -/
theorem State.sample_supplied (s : State) (ks : BitVec 16) (rest : List (BitVec 16)) (h : s.keysIn = ks :: rest) :
    s.keysNow = ks ∧ s.takeKeys = { s with keysIn := rest } := by
  simp [State.keysNow, State.takeKeys, h]

/-- With none supplied the sample is a free value, and the next one is another (R22). -/
theorem State.sample_free (s : State) (h : s.keysIn = []) :
    s.keysNow = Config.freeKeys s.keysCount ∧ s.takeKeys = { s with keysCount := s.keysCount + 1 } := by
  simp [State.keysNow, State.takeKeys, h]

/-! ## Faults -/

/-- What a fault raised by an instruction's effect writes (R192). -/
theorem State.raise_eq (s : State) (c : Cause) (ins : Instr) :
    s.raise c ins = { s with fault := true, faultCause := causeCode c, faultPc := s.pc - 2#16,
                             faultOpcode := encode ins, faultAddr := causeAddr c } := rfl

theorem causeCode_range (c : Cause) : 1 ≤ (causeCode c).toNat ∧ (causeCode c).toNat ≤ 5 := by
  cases c <;> simp [causeCode]

/-- In bounds, the access is made (R47). -/
theorem State.withinData_in (s : State) (ins : Instr) (n : Nat) (done : State)
    (h : n = 0 ∨ s.i.toNat + (n - 1) ≤ Config.memLast) : s.withinData ins n done = done := by
  unfold State.withinData; rw [if_neg]; omega

/-- Out of bounds, DataBounds is taken with the address of the last byte, and nothing else is written (R47, R192). -/
theorem State.withinData_out (s : State) (ins : Instr) (n : Nat) (done : State)
    (h : 0 < n ∧ Config.memLast < s.i.toNat + (n - 1)) :
    s.withinData ins n done = s.raise (.dataBounds (s.i.toNat + (n - 1))) ins := by
  unfold State.withinData; rw [if_pos h]

/-! ## The cycle -/

/-- A fetch at or below `0xFFE` reads the big-endian word at PC (R83). -/
theorem State.fetch_ok (s : State) (h : s.pc.toNat ≤ 0xFFE) : s.fetch = .ok (s.mem.readWord s.pc.toNat) := by
  unfold State.fetch; rw [if_neg (by omega)]

/-- A fetch above `0xFFE` is FetchBounds (R83). -/
theorem State.fetch_error (s : State) (h : 0xFFE < s.pc.toNat) : s.fetch = .error (.fetchBounds (s.pc.toNat + 1)) := by
  unfold State.fetch; rw [if_pos h]

end Sys2Proof.Machine
end

