-- ==== Sys2Proof/Laws/Display.lean ====
section
/-! SUPPORT. What drawing does, pixel by pixel (spec/44_display.md R161 to R165): a drawing toggles a set of frame pixels, reports
whether a lit one was among them, and leaves every byte outside video memory alone. -/
namespace Sys2Proof.Machine

/-- `d` is `c` with the frame pixels of `p` toggled and their collisions noted. -/
structure Toggles (p : Nat → Nat → Bool) (c d : Memory × Bool) : Prop where
  pixels : ∀ qx qy, qx < 64 → qy < 32 → d.1.pixel qx qy = (c.1.pixel qx qy ^^ p qx qy)
  collision : d.2 = true ↔ c.2 = true ∨ ∃ qx qy, qx < 64 ∧ qy < 32 ∧ p qx qy = true ∧ c.1.pixel qx qy = true
  outside : ∀ a, a < 0xF00 ∨ 0xFFF < a → d.1.read a = c.1.read a
  wf : c.1.wf → d.1.wf

theorem Toggles.none (c : Memory × Bool) : Toggles (fun _ _ => false) c c :=
  ⟨by simp, by simp, fun _ _ => rfl, id⟩

/-- Toggling the same set under another name. -/
theorem Toggles.of_eq {p q : Nat → Nat → Bool} {c d : Memory × Bool} (h : Toggles p c d)
    (e : ∀ qx qy, qx < 64 → qy < 32 → q qx qy = p qx qy) : Toggles q c d where
  pixels qx qy hx hy := by rw [e qx qy hx hy]; exact h.pixels qx qy hx hy
  collision := by
    rw [h.collision]
    constructor <;> rintro (hc | ⟨qx, qy, hx, hy, hp, hl⟩)
    · exact .inl hc
    · exact .inr ⟨qx, qy, hx, hy, by rw [e qx qy hx hy]; exact hp, hl⟩
    · exact .inl hc
    · exact .inr ⟨qx, qy, hx, hy, by rw [← e qx qy hx hy]; exact hp, hl⟩
  outside := h.outside
  wf := h.wf

/-- Toggling two disjoint sets one after the other toggles both. -/
theorem Toggles.trans {p q : Nat → Nat → Bool} {c d e : Memory × Bool} (h1 : Toggles p c d) (h2 : Toggles q d e)
    (disj : ∀ qx qy, p qx qy = true → q qx qy = false) : Toggles (fun qx qy => p qx qy || q qx qy) c e where
  pixels qx qy hx hy := by
    rw [h2.pixels qx qy hx hy, h1.pixels qx qy hx hy]
    cases hp : p qx qy <;> cases hq : q qx qy <;> simp_all
  collision := by
    rw [h2.collision, h1.collision]
    constructor
    · rintro ((hc | ⟨qx, qy, hx, hy, hp, hl⟩) | ⟨qx, qy, hx, hy, hq, hl⟩)
      · exact .inl hc
      · exact .inr ⟨qx, qy, hx, hy, by simp [hp], hl⟩
      · have hp : p qx qy = false := by
          cases hp : p qx qy
          · rfl
          · simp [disj qx qy hp] at hq
        rw [h1.pixels qx qy hx hy, hp] at hl
        exact .inr ⟨qx, qy, hx, hy, by simp [hq], by simpa using hl⟩
    · rintro (hc | ⟨qx, qy, hx, hy, hpq, hl⟩)
      · exact .inl (.inl hc)
      · cases hp : p qx qy
        · refine .inr ⟨qx, qy, hx, hy, by simpa [hp] using hpq, ?_⟩
          rw [h1.pixels qx qy hx hy, hp, hl]; rfl
        · exact .inl (.inr ⟨qx, qy, hx, hy, hp, hl⟩)
  outside a ha := by rw [h2.outside a ha, h1.outside a ha]
  wf hw := h2.wf (h1.wf hw)

/-- The mask of a pixel has exactly the bit of that pixel (R45, R161). -/
theorem pixelMask_bit (px qx : Nat) : (pixelMask px).getLsbD (7 - qx % 8) = decide (px % 8 = qx % 8) := by
  have h : ∀ a b : Fin 8, (0x80#8 >>> a.val).getLsbD (7 - b.val) = decide (a.val = b.val) := by decide
  exact h ⟨px % 8, Nat.mod_lt _ (by decide)⟩ ⟨qx % 8, Nat.mod_lt _ (by decide)⟩

/-- A byte meets a pixel's mask exactly when its bit for that pixel is set. -/
theorem and_pixelMask_ne_zero (b : Byte) (px : Nat) : ((b &&& pixelMask px) != 0x00#8) = b.getLsbD (7 - px % 8) := by
  have hm : ∀ k, k < 8 → (pixelMask px).getLsbD k = decide (k = 7 - px % 8) := by
    intro k hk
    have := pixelMask_bit px (7 - k)
    rw [show 7 - (7 - k) % 8 = k by omega] at this
    rw [this]; congr 1; apply propext; omega
  by_cases hb : b.getLsbD (7 - px % 8) = true
  · rw [hb, bne_iff_ne]
    intro e
    have := congrArg (fun z => z.getLsbD (7 - px % 8)) e
    simp [hb, hm (7 - px % 8) (by omega)] at this
  · rw [Bool.not_eq_true] at hb
    rw [hb, bne_eq_false_iff_eq]
    apply BitVec.eq_of_getLsbD_eq
    intro k hk
    rw [BitVec.getLsbD_and, hm k hk]
    by_cases hk' : k = 7 - px % 8
    · simp [hk', hb]
    · simp [hk']

/-- Two frame pixels share a byte and a bit only when they are the same pixel. -/
theorem pixelAddr_eq_iff (px py qx qy : Nat) (hx : px < 64) (hx' : qx < 64) :
    (pixelAddr qx qy = pixelAddr px py ∧ px % 8 = qx % 8) ↔ (qx = px ∧ qy = py) := by
  simp only [pixelAddr, Config.videoBase]; omega

theorem toggles_plotPixel (px py : Nat) (c : Memory × Bool) (hx : px < 64) (hy : py < 32) :
    Toggles (fun qx qy => decide (qx = px ∧ qy = py)) c (plotPixel px py c) where
  pixels qx qy hqx hqy := by
    have key := pixelAddr_eq_iff px py qx qy hx hqx
    simp only [plotPixel, Memory.pixel, Memory.read_write]
    by_cases ha : pixelAddr qx qy = pixelAddr px py
    · rw [if_pos ha, BitVec.getLsbD_xor, pixelMask_bit, ha]
      congr 2
      apply propext; rw [← key]; simp [ha]
    · rw [if_neg ha]
      have : ¬ (qx = px ∧ qy = py) := fun e => ha (key.2 e).1
      simp [this]
  collision := by
    simp only [plotPixel, Bool.or_eq_true, and_pixelMask_ne_zero, decide_eq_true_eq]
    constructor
    · rintro (h | h)
      · exact .inl h
      · exact .inr ⟨px, py, hx, hy, ⟨rfl, rfl⟩, h⟩
    · rintro (h | ⟨qx, qy, -, -, ⟨rfl, rfl⟩, h⟩)
      · exact .inl h
      · exact .inr h
  outside a ha := by
    have : a ≠ pixelAddr px py := by simp only [pixelAddr, Config.videoBase]; omega
    simp [plotPixel, this]
  wf h := Memory.wf_write _ _ _ h (by simp only [pixelAddr, Config.videoBase, Config.memLast]; omega)

/-- The pixels of one row of a sprite, its first `k` columns. -/
def rowBits (row : Byte) (vx py k qx qy : Nat) : Bool :=
  decide (qy = py ∧ vx ≤ qx ∧ qx < vx + k) && row.getLsbD (7 - (qx - vx))

theorem toggles_columns (row : Byte) (vx py k : Nat) (c : Memory × Bool) (hy : py < 32) (hk : k ≤ 8) :
    Toggles (rowBits row vx py k) c ((List.range k).foldl (plotColumn row vx py) c) := by
  induction k with
  | zero => exact (Toggles.none c).of_eq fun qx qy _ _ => by simp [rowBits]
  | succ k ih =>
    rw [List.range_succ, List.foldl_append, List.foldl_cons, List.foldl_nil]
    have ih := ih (by omega)
    unfold plotColumn
    split
    · rename_i h
      refine (ih.trans (toggles_plotPixel (vx + k) py _ h.1 hy) ?_).of_eq ?_
      · intro qx qy hp; simp [rowBits] at hp ⊢; omega
      · intro qx qy _ _
        by_cases e : qx = vx + k ∧ qy = py
        · obtain ⟨rfl, rfl⟩ := e
          simp [rowBits, h.2]
        · have : rowBits row vx py (k + 1) qx qy = rowBits row vx py k qx qy := by
            unfold rowBits; congr 2; apply propext; omega
          simp [this, e]
    · rename_i h
      refine ih.of_eq fun qx qy hqx _ => ?_
      unfold rowBits
      by_cases e : qy = py ∧ qx = vx + k
      · obtain ⟨rfl, rfl⟩ := e
        have : row.getLsbD (7 - k) = false := by simpa [hqx, Config.screenW] using h
        simp [this]
      · congr 2; apply propext; omega

theorem toggles_plotRow (row : Byte) (vx py : Nat) (c : Memory × Bool) :
    Toggles (rowBits row vx py 8) c (plotRow row vx py c) := by
  unfold plotRow
  split
  · exact toggles_columns row vx py 8 c (by assumption) (le_refl 8)
  · rename_i h
    exact (Toggles.none c).of_eq fun qx qy _ hqy => by simp only [Config.screenH] at h; simp [rowBits]; omega

/-- Everything a draw does to memory: each frame pixel is toggled by the sprite bit that meets it (R161 to R165). -/
theorem toggles_plotRows (vx py : Nat) (rows : List Byte) (c : Memory × Bool) :
    Toggles (spriteBit rows vx py) c (plotRows vx py rows c) := by
  induction rows generalizing py c with
  | nil => exact (Toggles.none c).of_eq fun qx qy _ _ => by simp [spriteBit]
  | cons row rest ih =>
    refine ((toggles_plotRow row vx py c).trans (ih (py + 1) _) ?_).of_eq ?_
    · intro qx qy hp
      simp [rowBits] at hp
      simp [spriteBit]; omega
    · intro qx qy _ _
      unfold rowBits spriteBit
      by_cases h1 : qy = py
      · subst h1; simp
      · by_cases h2 : py < qy
        · rw [show qy - py = (qy - (py + 1)) + 1 by omega]
          simp only [List.getElem?_cons_succ, h1, false_and, decide_false, Bool.false_and, Bool.false_or]
          congr 2; apply propext; omega
        · have h3 : ¬ py ≤ qy := by omega
          have h4 : ¬ py + 1 ≤ qy := by omega
          simp [h1, h3, h4]

/-- The pixels are all there is to video memory: memories with the same pixels in the frame and the same bytes outside video
memory read alike everywhere (R45). -/
theorem Memory.read_eq_of_pixels {m m' : Memory} (hp : ∀ px py, px < 64 → py < 32 → m'.pixel px py = m.pixel px py)
    (ho : ∀ a, a < 0xF00 ∨ 0xFFF < a → m'.read a = m.read a) (a : Nat) : m'.read a = m.read a := by
  by_cases h : a < 0xF00 ∨ 0xFFF < a
  · exact ho a h
  · apply BitVec.eq_of_getLsbD_eq
    intro k hk
    have := hp ((a - 0xF00) % 8 * 8 + (7 - k)) ((a - 0xF00) / 8) (by omega) (by omega)
    have ha : pixelAddr ((a - 0xF00) % 8 * 8 + (7 - k)) ((a - 0xF00) / 8) = a := by
      simp only [pixelAddr, Config.videoBase]; omega
    rw [Memory.pixel, Memory.pixel, ha, show 7 - ((a - 0xF00) % 8 * 8 + (7 - k)) % 8 = k by omega] at this
    exact this

end Sys2Proof.Machine
end

