-- ==== Sys2Proof/Laws/Encoding.lean ====
section
/-! SUPPORT. Fields and formats as numbers (spec/30_encoding.md R61, R62, R74): the fields of a word that a format was assembled
from, and a word from its fields. -/
namespace Sys2Proof

theorem append_toNat {m n : Nat} (a : BitVec m) (b : BitVec n) : (a ++ b).toNat = a.toNat * 2 ^ n + b.toNat := by
  rw [BitVec.toNat_append, ← Nat.shiftLeft_add_eq_or_of_lt b.isLt, Nat.shiftLeft_eq]

theorem formatA_toNat (t : Nibble) (nnn : Lit12) : (formatA t nnn).toNat = t.toNat * 4096 + nnn.toNat :=
  append_toNat t nnn

theorem formatXK_toNat (t : Nibble) (x : Reg) (kk : Byte) :
    (formatXK t x kk).toNat = t.toNat * 4096 + x.val * 256 + kk.toNat := by
  show (t ++ BitVec.ofFin (w := 4) x ++ kk).toNat = _
  have hx : (BitVec.ofFin (w := 4) x).toNat = x.val := rfl
  rw [append_toNat, append_toNat, hx]; omega

theorem formatXYN_toNat (t : Nibble) (x y : Reg) (n : Nibble) :
    (formatXYN t x y n).toNat = t.toNat * 4096 + x.val * 256 + y.val * 16 + n.toNat := by
  show (t ++ BitVec.ofFin (w := 4) x ++ BitVec.ofFin (w := 4) y ++ n).toNat = _
  have hx : (BitVec.ofFin (w := 4) x).toNat = x.val := rfl
  have hy : (BitVec.ofFin (w := 4) y).toNat = y.val := rfl
  rw [append_toNat, append_toNat, append_toNat, hx, hy]; omega

theorem fieldT_toNat (w : Word) : (fieldT w).toNat = w.toNat / 4096 := by
  have := w.isLt
  simp only [fieldT, BitVec.extractLsb'_toNat, Nat.shiftRight_eq_div_pow]; omega

theorem fieldX_val (w : Word) : (fieldX w).val = w.toNat / 256 % 16 := by
  show (w.extractLsb' 8 4).toNat = _
  simp only [BitVec.extractLsb'_toNat, Nat.shiftRight_eq_div_pow]

theorem fieldY_val (w : Word) : (fieldY w).val = w.toNat / 16 % 16 := by
  show (w.extractLsb' 4 4).toNat = _
  simp only [BitVec.extractLsb'_toNat, Nat.shiftRight_eq_div_pow]

theorem fieldN_toNat (w : Word) : (fieldN w).toNat = w.toNat % 16 := by
  simp [fieldN]

theorem fieldKK_toNat (w : Word) : (fieldKK w).toNat = w.toNat % 256 := by
  simp [fieldKK]

theorem fieldNNN_toNat (w : Word) : (fieldNNN w).toNat = w.toNat % 4096 := by
  simp [fieldNNN]

/-! ## The fields of a format -/

@[simp] theorem fieldT_formatA (t : Nibble) (nnn : Lit12) : fieldT (formatA t nnn) = t :=
  BitVec.eq_of_toNat_eq (by rw [fieldT_toNat, formatA_toNat]; omega)

@[simp] theorem fieldNNN_formatA (t : Nibble) (nnn : Lit12) : fieldNNN (formatA t nnn) = nnn :=
  BitVec.eq_of_toNat_eq (by rw [fieldNNN_toNat, formatA_toNat]; omega)

@[simp] theorem fieldT_formatXK (t : Nibble) (x : Reg) (kk : Byte) : fieldT (formatXK t x kk) = t :=
  BitVec.eq_of_toNat_eq (by rw [fieldT_toNat, formatXK_toNat]; omega)

@[simp] theorem fieldX_formatXK (t : Nibble) (x : Reg) (kk : Byte) : fieldX (formatXK t x kk) = x :=
  Fin.ext (by rw [fieldX_val, formatXK_toNat]; omega)

@[simp] theorem fieldKK_formatXK (t : Nibble) (x : Reg) (kk : Byte) : fieldKK (formatXK t x kk) = kk :=
  BitVec.eq_of_toNat_eq (by rw [fieldKK_toNat, formatXK_toNat]; omega)

@[simp] theorem fieldT_formatXYN (t : Nibble) (x y : Reg) (n : Nibble) : fieldT (formatXYN t x y n) = t :=
  BitVec.eq_of_toNat_eq (by rw [fieldT_toNat, formatXYN_toNat]; omega)

@[simp] theorem fieldX_formatXYN (t : Nibble) (x y : Reg) (n : Nibble) : fieldX (formatXYN t x y n) = x :=
  Fin.ext (by rw [fieldX_val, formatXYN_toNat]; omega)

@[simp] theorem fieldY_formatXYN (t : Nibble) (x y : Reg) (n : Nibble) : fieldY (formatXYN t x y n) = y :=
  Fin.ext (by rw [fieldY_val, formatXYN_toNat]; omega)

@[simp] theorem fieldN_formatXYN (t : Nibble) (x y : Reg) (n : Nibble) : fieldN (formatXYN t x y n) = n :=
  BitVec.eq_of_toNat_eq (by rw [fieldN_toNat, formatXYN_toNat]; omega)

/-- The sub-opcode nibble of a family's word lies in its low 12 bits (R65). -/
theorem fieldN_formatA (t : Nibble) (nnn : Lit12) : (fieldN (formatA t nnn)).toNat = subNibble nnn := by
  rw [fieldN_toNat, formatA_toNat, subNibble]; omega

/-- The sub-opcode byte of a family's word lies in its low 12 bits (R65). -/
theorem fieldKK_formatA (t : Nibble) (nnn : Lit12) : (fieldKK (formatA t nnn)).toNat = subByte nnn := by
  rw [fieldKK_toNat, formatA_toNat, subByte]; omega

/-! ## A word from its fields -/

/-- A word is its family and its low 12 bits. -/
theorem formatA_fields (w : Word) : formatA (fieldT w) (fieldNNN w) = w :=
  BitVec.eq_of_toNat_eq (by rw [formatA_toNat, fieldT_toNat, fieldNNN_toNat]; omega)

/-- A word is its family, its `x` and its low byte. -/
theorem formatXK_fields (w : Word) : formatXK (fieldT w) (fieldX w) (fieldKK w) = w :=
  BitVec.eq_of_toNat_eq (by rw [formatXK_toNat, fieldT_toNat, fieldX_val, fieldKK_toNat]; omega)

/-- A word is its four nibbles. -/
theorem formatXYN_fields (w : Word) : formatXYN (fieldT w) (fieldX w) (fieldY w) (fieldN w) = w :=
  BitVec.eq_of_toNat_eq (by rw [formatXYN_toNat, fieldT_toNat, fieldX_val, fieldY_val, fieldN_toNat]; omega)

end Sys2Proof
end

