-- ==== Sys2Proof/Laws/Exec.lean ====
section
/-! SUPPORT. What one instruction can do to the parts of the state that the rules over all instructions are about, said once; and
that no instruction reads the model's own step counter. -/
namespace Sys2Proof.Machine

/-- The parts of the state that every instruction treats alike: the step counter and the host's operations stay; memory keeps
its canonical form and `SP` its range; either the fault latch stays or exactly a fault of the instruction is latched; and the
engine is suspended only where no fault is taken. -/
structure Effect (s t : State) : Prop where
  cyclesLeft : t.cyclesLeft = s.cyclesLeft
  hostOps : t.hostOps = s.hostOps
  wf : s.mem.wf → s.sp.toNat ≤ 48 → t.mem.wf
  sp : s.sp.toNat ≤ 48 → t.sp.toNat ≤ 48
  latch : (t.fault = s.fault ∧ t.faultCause = s.faultCause) ∨
    (t.fault = true ∧ (1 ≤ t.faultCause.toNat ∧ t.faultCause.toNat ≤ 5) ∧ t.wait = s.wait)

theorem Effect.refl (s : State) : Effect s s := ⟨rfl, rfl, fun h _ => h, id, .inl ⟨rfl, rfl⟩⟩

theorem Effect.raise (s : State) (c : Cause) (ins : Instr) : Effect s (s.raise c ins) :=
  ⟨rfl, rfl, fun h _ => h, id, .inr ⟨rfl, causeCode_range c, rfl⟩⟩

theorem Effect.withinData {s : State} {ins : Instr} {n : Nat} {t : State}
    (h : n = 0 ∨ s.i.toNat + (n - 1) ≤ Config.memLast → Effect s t) : Effect s (s.withinData ins n t) := by
  by_cases hb : 0 < n ∧ Config.memLast < s.i.toNat + (n - 1)
  · rw [State.withinData_out _ _ _ _ hb]; exact Effect.raise ..
  · have hb' : n = 0 ∨ s.i.toNat + (n - 1) ≤ Config.memLast := by omega
    rw [State.withinData_in _ _ _ _ hb']; exact h hb'

theorem Effect.ofMem (s : State) (m : Memory) (h : s.mem.wf → m.wf) : Effect s { s with mem := m } :=
  ⟨rfl, rfl, fun hw _ => h hw, id, .inl ⟨rfl, rfl⟩⟩

theorem Effect.ofV (s : State) (v : Vector Byte 16) : Effect s { s with v := v } :=
  ⟨rfl, rfl, fun h _ => h, id, .inl ⟨rfl, rfl⟩⟩

theorem slotAddr_lt (k : BitVec 6) (h : k.toNat < 48) : slotAddr k + 2 ≤ 0xF00 := by
  simp only [slotAddr, Config.stackBase]; omega

/-- Every instruction answers a next state, and its effect is one of those above. -/
theorem exec_effect (ins : Instr) (s : State) : ∃ t, exec ins s = .next t ∧ Effect s t := by
  cases ins
  case ret =>
    refine ⟨_, rfl, ?_⟩
    split
    · exact Effect.raise ..
    · rename_i h
      refine ⟨rfl, rfl, fun hw _ => hw, fun hs => ?_, .inl ⟨rfl, rfl⟩⟩
      have h1 : s.sp.toNat ≠ 0 := fun e => h (BitVec.eq_of_toNat_eq e)
      show (s.sp - 1#6).toNat ≤ 48
      rw [BitVec.toNat_sub]; simp; omega
  case call nnn =>
    refine ⟨_, rfl, ?_⟩
    split
    · exact Effect.raise ..
    · rename_i h
      have h1 : s.sp.toNat ≠ 48 := fun e => h (BitVec.eq_of_toNat_eq e)
      refine ⟨rfl, rfl, fun hw hs => ?_, fun hs => ?_, .inl ⟨rfl, rfl⟩⟩
      · exact Memory.wf_writeWord _ _ _ hw (by have := slotAddr_lt s.sp (by omega); simp only [Config.memLast]; omega)
      · show (s.sp + 1#6).toNat ≤ 48
        rw [BitVec.toNat_add]; simp; omega
  case cls =>
    exact ⟨_, rfl, Effect.ofMem s _ fun hw => Memory.wf_restore _ _ _ hw⟩
  case drw x y n =>
    refine ⟨_, rfl, Effect.withinData fun _ => ?_⟩
    exact ⟨rfl, rfl, fun hw _ => (toggles_plotRows _ _ _ (s.mem, false)).wf hw, id, .inl ⟨rfl, rfl⟩⟩
  case ldB x =>
    refine ⟨_, rfl, Effect.withinData fun hb => Effect.ofMem s _ fun hw => ?_⟩
    exact Memory.wf_writeBytes _ _ _ hw (by show s.i.toNat + 3 ≤ _; omega)
  case storeRegs x =>
    refine ⟨_, rfl, Effect.withinData fun hb => Effect.ofMem s _ fun hw => ?_⟩
    exact Memory.wf_writeBytes _ _ _ hw (by rw [State.regsUpTo_length]; omega)
  case loadRegs x =>
    exact ⟨_, rfl, Effect.withinData fun _ => Effect.ofV s _⟩
  all_goals
    refine ⟨_, rfl, ?_, ?_, fun h _ => ?_, ?_, ?_⟩
    case refine_3 =>
      first
      | exact h
      | simpa only [State.skipIf_mem, State.takeKeys_mem, State.setV_mem, State.takeRnd_mem] using h
    all_goals simp [State.setResultThenFlag, State.unrecognized]

end Sys2Proof.Machine
end

