-- ==== Sys2Proof/Laws/PerInstr.lean ====
section
/-! SUPPORT. One law for every instruction: the word that `encode` gives matches the mask and the pattern of the instruction's own
row of spec/opcode_table.json. -/
namespace Sys2Proof.Laws

/-- The mask and the pattern of each row, as spec/opcode_table.json has them. -/
def tableRow : Instr → Word × Word
  | .cls => (0xFFFF#16, 0x00E0#16)
  | .ret => (0xFFFF#16, 0x00EE#16)
  | .sys _ => (0xF000#16, 0x0000#16)
  | .jp _ => (0xF000#16, 0x1000#16)
  | .call _ => (0xF000#16, 0x2000#16)
  | .seImm _ _ => (0xF000#16, 0x3000#16)
  | .sneImm _ _ => (0xF000#16, 0x4000#16)
  | .seReg _ _ => (0xF00F#16, 0x5000#16)
  | .ldImm _ _ => (0xF000#16, 0x6000#16)
  | .addImm _ _ => (0xF000#16, 0x7000#16)
  | .ldReg _ _ => (0xF00F#16, 0x8000#16)
  | .orReg _ _ => (0xF00F#16, 0x8001#16)
  | .andReg _ _ => (0xF00F#16, 0x8002#16)
  | .xorReg _ _ => (0xF00F#16, 0x8003#16)
  | .addReg _ _ => (0xF00F#16, 0x8004#16)
  | .subReg _ _ => (0xF00F#16, 0x8005#16)
  | .shr _ _ => (0xF00F#16, 0x8006#16)
  | .subnReg _ _ => (0xF00F#16, 0x8007#16)
  | .shl _ _ => (0xF00F#16, 0x800E#16)
  | .sneReg _ _ => (0xF00F#16, 0x9000#16)
  | .ldI _ => (0xF000#16, 0xA000#16)
  | .jpV0 _ => (0xF000#16, 0xB000#16)
  | .rnd _ _ => (0xF000#16, 0xC000#16)
  | .drw _ _ _ => (0xF000#16, 0xD000#16)
  | .skp _ => (0xF0FF#16, 0xE09E#16)
  | .sknp _ => (0xF0FF#16, 0xE0A1#16)
  | .ldVxDt _ => (0xF0FF#16, 0xF007#16)
  | .ldVxK _ => (0xF0FF#16, 0xF00A#16)
  | .ldDtVx _ => (0xF0FF#16, 0xF015#16)
  | .ldStVx _ => (0xF0FF#16, 0xF018#16)
  | .addI _ => (0xF0FF#16, 0xF01E#16)
  | .ldF _ => (0xF0FF#16, 0xF029#16)
  | .ldB _ => (0xF0FF#16, 0xF033#16)
  | .storeRegs _ => (0xF0FF#16, 0xF055#16)
  | .loadRegs _ => (0xF0FF#16, 0xF065#16)
  | .reserved5 _ => (0xF000#16, 0x5000#16)
  | .reserved8 _ => (0xF000#16, 0x8000#16)
  | .reserved9 _ => (0xF000#16, 0x9000#16)
  | .reservedE _ => (0xF000#16, 0xE000#16)
  | .reservedF _ => (0xF000#16, 0xF000#16)

/-- The masks of the table keep whole fields: the family here, the family and the low nibble or low byte below. -/
theorem masked_family (w : Word) : (w &&& 0xF000#16).toNat = w.toNat / 4096 * 4096 := by
  have h : w &&& 0xF000#16 = w.extractLsb' 12 4 ++ 0#12 := by
    apply BitVec.eq_of_getLsbD_eq
    intro k hk
    rw [BitVec.getLsbD_and, BitVec.getLsbD_append]
    interval_cases k <;> simp
  rw [h, append_toNat, BitVec.extractLsb'_toNat, Nat.shiftRight_eq_div_pow]; simp; omega

theorem masked_nibble (w : Word) : (w &&& 0xF00F#16).toNat = w.toNat / 4096 * 4096 + w.toNat % 16 := by
  have h : w &&& 0xF00F#16 = w.extractLsb' 12 4 ++ 0#8 ++ w.extractLsb' 0 4 := by
    apply BitVec.eq_of_getLsbD_eq
    intro k hk
    rw [BitVec.getLsbD_and, BitVec.getLsbD_append, BitVec.getLsbD_append]
    interval_cases k <;> simp
  rw [h, append_toNat, append_toNat, BitVec.extractLsb'_toNat, BitVec.extractLsb'_toNat, Nat.shiftRight_eq_div_pow]; simp; omega

theorem masked_byte (w : Word) : (w &&& 0xF0FF#16).toNat = w.toNat / 4096 * 4096 + w.toNat % 256 := by
  have h : w &&& 0xF0FF#16 = w.extractLsb' 12 4 ++ 0#4 ++ w.extractLsb' 0 8 := by
    apply BitVec.eq_of_getLsbD_eq
    intro k hk
    rw [BitVec.getLsbD_and, BitVec.getLsbD_append, BitVec.getLsbD_append]
    interval_cases k <;> simp
  rw [h, append_toNat, append_toNat, BitVec.extractLsb'_toNat, BitVec.extractLsb'_toNat, Nat.shiftRight_eq_div_pow]; simp; omega

theorem formatA_masked (t : Nibble) (nnn : Lit12) : formatA t nnn &&& 0xF000#16 = t ++ 0#12 :=
  BitVec.eq_of_toNat_eq (by rw [masked_family, formatA_toNat, append_toNat]; simp; omega)

theorem formatXK_masked (t : Nibble) (x : Reg) (kk : Byte) : formatXK t x kk &&& 0xF000#16 = t ++ 0#12 :=
  BitVec.eq_of_toNat_eq (by rw [masked_family, formatXK_toNat, append_toNat]; simp; omega)

theorem formatXYN_masked (t : Nibble) (x y : Reg) (n : Nibble) : formatXYN t x y n &&& 0xF000#16 = t ++ 0#12 :=
  BitVec.eq_of_toNat_eq (by rw [masked_family, formatXYN_toNat, append_toNat]; simp; omega)

theorem formatXY_masked (t : Nibble) (x y : Reg) (n : Nibble) : formatXYN t x y n &&& 0xF00F#16 = t ++ 0#8 ++ n :=
  BitVec.eq_of_toNat_eq (by rw [masked_nibble, formatXYN_toNat, append_toNat, append_toNat]; simp; omega)

theorem formatXS_masked (t : Nibble) (x : Reg) (kk : Byte) : formatXK t x kk &&& 0xF0FF#16 = t ++ 0#4 ++ kk :=
  BitVec.eq_of_toNat_eq (by rw [masked_byte, formatXK_toNat, append_toNat, append_toNat]; simp; omega)

end Sys2Proof.Laws

namespace Sys2Proof.Laws.EncodeMatchesTable

/-- The encoding of `ins` matches its row of the opcode table (spec/30_encoding.md R64). -/
def Statement (ins : Instr) : Prop := encode ins &&& (tableRow ins).1 = (tableRow ins).2

theorem cls : Statement .cls := rfl
theorem ret : Statement .ret := rfl
theorem sys (nnn : Lit12) : Statement (.sys nnn) := formatA_masked _ _
theorem jp (nnn : Lit12) : Statement (.jp nnn) := formatA_masked _ _
theorem call (nnn : Lit12) : Statement (.call nnn) := formatA_masked _ _
theorem seImm (x : Reg) (kk : Byte) : Statement (.seImm x kk) := formatXK_masked _ _ _
theorem sneImm (x : Reg) (kk : Byte) : Statement (.sneImm x kk) := formatXK_masked _ _ _
theorem seReg (x y : Reg) : Statement (.seReg x y) := formatXY_masked _ _ _ _
theorem ldImm (x : Reg) (kk : Byte) : Statement (.ldImm x kk) := formatXK_masked _ _ _
theorem addImm (x : Reg) (kk : Byte) : Statement (.addImm x kk) := formatXK_masked _ _ _
theorem ldReg (x y : Reg) : Statement (.ldReg x y) := formatXY_masked _ _ _ _
theorem orReg (x y : Reg) : Statement (.orReg x y) := formatXY_masked _ _ _ _
theorem andReg (x y : Reg) : Statement (.andReg x y) := formatXY_masked _ _ _ _
theorem xorReg (x y : Reg) : Statement (.xorReg x y) := formatXY_masked _ _ _ _
theorem addReg (x y : Reg) : Statement (.addReg x y) := formatXY_masked _ _ _ _
theorem subReg (x y : Reg) : Statement (.subReg x y) := formatXY_masked _ _ _ _
theorem shr (x y : Reg) : Statement (.shr x y) := formatXY_masked _ _ _ _
theorem subnReg (x y : Reg) : Statement (.subnReg x y) := formatXY_masked _ _ _ _
theorem shl (x y : Reg) : Statement (.shl x y) := formatXY_masked _ _ _ _
theorem sneReg (x y : Reg) : Statement (.sneReg x y) := formatXY_masked _ _ _ _
theorem ldI (nnn : Lit12) : Statement (.ldI nnn) := formatA_masked _ _
theorem jpV0 (nnn : Lit12) : Statement (.jpV0 nnn) := formatA_masked _ _
theorem rnd (x : Reg) (kk : Byte) : Statement (.rnd x kk) := formatXK_masked _ _ _
theorem drw (x y : Reg) (n : Nibble) : Statement (.drw x y n) := formatXYN_masked _ _ _ _
theorem skp (x : Reg) : Statement (.skp x) := formatXS_masked _ _ _
theorem sknp (x : Reg) : Statement (.sknp x) := formatXS_masked _ _ _
theorem ldVxDt (x : Reg) : Statement (.ldVxDt x) := formatXS_masked _ _ _
theorem ldVxK (x : Reg) : Statement (.ldVxK x) := formatXS_masked _ _ _
theorem ldDtVx (x : Reg) : Statement (.ldDtVx x) := formatXS_masked _ _ _
theorem ldStVx (x : Reg) : Statement (.ldStVx x) := formatXS_masked _ _ _
theorem addI (x : Reg) : Statement (.addI x) := formatXS_masked _ _ _
theorem ldF (x : Reg) : Statement (.ldF x) := formatXS_masked _ _ _
theorem ldB (x : Reg) : Statement (.ldB x) := formatXS_masked _ _ _
theorem storeRegs (x : Reg) : Statement (.storeRegs x) := formatXS_masked _ _ _
theorem loadRegs (x : Reg) : Statement (.loadRegs x) := formatXS_masked _ _ _
theorem reserved5 (low : Lit12) : Statement (.reserved5 low) := formatA_masked _ _
theorem reserved8 (low : Lit12) : Statement (.reserved8 low) := formatA_masked _ _
theorem reserved9 (low : Lit12) : Statement (.reserved9 low) := formatA_masked _ _
theorem reservedE (low : Lit12) : Statement (.reservedE low) := formatA_masked _ _
theorem reservedF (low : Lit12) : Statement (.reservedF low) := formatA_masked _ _

end Sys2Proof.Laws.EncodeMatchesTable
end

