-- ==== Sys2Proof/Laws/Step.lean ====
section
/-! SUPPORT. What one machine step can be, said once; and that a cycle does not read the model's own step counter. -/
namespace Sys2Proof.Machine

/-- The three things a machine step can be: the host's turn, the end of a step that cannot go on, or a cycle. -/
theorem step_cases (s : State) :
    (s.cyclesLeft = 0 ∧ step s = .next s.hostTurn) ∨
    (s.cyclesLeft ≠ 0 ∧ (s.fault = true ∨ s.wait = true) ∧ step s = .next { s with cyclesLeft := 0 }) ∨
    (s.Running ∧ step s = s.cycleTurn) := by
  unfold step State.machineStep
  split
  · exact .inl ⟨by assumption, rfl⟩
  · rename_i n hn
    split
    · exact .inr (.inl ⟨by omega, by assumption, rfl⟩)
    · rename_i h
      refine .inr (.inr ⟨⟨?_, ?_, by omega⟩, rfl⟩)
      · simpa using fun e => h (.inl e)
      · simpa using fun e => h (.inr e)

/-- With no cycle left a step is the host's turn. -/
theorem step_host {s : State} (h : s.cyclesLeft = 0) : step s = .next s.hostTurn := by
  rcases step_cases s with ⟨-, h'⟩ | ⟨h', -⟩ | ⟨⟨-, -, h'⟩, -⟩
  · exact h'
  · exact absurd h h'
  · exact absurd h h'

/-- A running engine's step is a cycle. -/
theorem step_running {s : State} (h : s.Running) : step s = s.cycleTurn := by
  obtain ⟨hf, hw, hn⟩ := h
  rcases step_cases s with ⟨h, -⟩ | ⟨-, h, -⟩ | ⟨-, h⟩
  · exact absurd h hn
  · simp [hf, hw] at h
  · exact h

/-- The two things a cycle can be: a fetch fault latched with PC kept, or the decoded instruction on the advanced state. The
decoder's error arm is the third, which no word reaches (R69). -/
theorem cycle_cases (s : State) :
    (0xFFE < s.pc.toNat ∧ s.cycle = .next (s.latch (.fetchBounds (s.pc.toNat + 1)) s.pc 0x0000#16)) ∨
    (s.pc.toNat ≤ 0xFFE ∧ ∃ ins, decodeWord (s.mem.readWord s.pc.toNat) = .ok ins ∧ s.cycle = exec ins s.advance) ∨
    (s.pc.toNat ≤ 0xFFE ∧ ∃ e, decodeWord (s.mem.readWord s.pc.toNat) = .error e ∧
      s.cycle = .next (s.advance.latch .invalidOpcode s.pc (s.mem.readWord s.pc.toNat))) := by
  by_cases h : 0xFFE < s.pc.toNat
  · exact .inl ⟨h, by simp [State.cycle, State.fetch_error s h]⟩
  · have h : s.pc.toNat ≤ 0xFFE := by omega
    cases hd : decodeWord (s.mem.readWord s.pc.toNat) with
    | ok ins => exact .inr (.inl ⟨h, ins, rfl, by simp [State.cycle, State.fetch_ok s h, hd]⟩)
    | error e => exact .inr (.inr ⟨h, e, rfl, by simp [State.cycle, State.fetch_ok s h, hd]⟩)

/-- A cycle answers a next state, whose effect is one of those every instruction has. -/
theorem cycle_effect (s : State) : ∃ t, s.cycle = .next t ∧ Effect s t := by
  rcases cycle_cases s with ⟨-, h⟩ | ⟨-, ins, -, h⟩ | ⟨-, e, -, h⟩
  · exact ⟨_, h, rfl, rfl, fun hw _ => hw, id, .inr ⟨rfl, causeCode_range _, rfl⟩⟩
  · obtain ⟨t, ht, he⟩ := exec_effect ins s.advance
    exact ⟨t, h.trans ht, he.cyclesLeft, he.hostOps, he.wf, he.sp, he.latch⟩
  · exact ⟨_, h, rfl, rfl, fun hw _ => hw, id, .inr ⟨rfl, causeCode_range _, rfl⟩⟩

theorem State.skipIf_withCyclesLeft (s : State) (c : Bool) (k : Nat) :
    State.skipIf { s with cyclesLeft := k } c = { s.skipIf c with cyclesLeft := k } := by cases c <;> rfl

theorem State.takeKeys_withCyclesLeft (s : State) (k : Nat) :
    State.takeKeys { s with cyclesLeft := k } = { s.takeKeys with cyclesLeft := k } := by
  simp only [State.takeKeys]; split <;> rfl

theorem State.takeRnd_withCyclesLeft (s : State) (k : Nat) :
    State.takeRnd { s with cyclesLeft := k } = { s.takeRnd with cyclesLeft := k } := by
  simp only [State.takeRnd]; split <;> rfl

/-- No instruction reads or writes the step counter. -/
theorem exec_withCyclesLeft (ins : Instr) (s t : State) (k : Nat) (h : exec ins s = .next t) :
    exec ins { s with cyclesLeft := k } = .next { t with cyclesLeft := k } := by
  cases ins
  all_goals cases h
  case seImm x kk => simp only [exec, execSeImm, State.skipIf_withCyclesLeft]; rfl
  case sneImm x kk => simp only [exec, execSneImm, State.skipIf_withCyclesLeft]; rfl
  case seReg x y => simp only [exec, execSeReg, State.skipIf_withCyclesLeft]; rfl
  case sneReg x y => simp only [exec, execSneReg, State.skipIf_withCyclesLeft]; rfl
  case rnd x kk => simp only [exec, execRnd, State.takeRnd_withCyclesLeft]; rfl
  case skp x => simp only [exec, execSkp, State.takeKeys_withCyclesLeft, State.skipIf_withCyclesLeft]; rfl
  case sknp x => simp only [exec, execSknp, State.takeKeys_withCyclesLeft, State.skipIf_withCyclesLeft]; rfl
  case ret => simp only [exec, execRet]; split <;> rfl
  case call nnn => simp only [exec, execCall]; split <;> rfl
  case ldB x => simp only [exec, execLdB, State.withinData]; split <;> rfl
  case storeRegs x => simp only [exec, execStoreRegs, State.withinData]; split <;> rfl
  case loadRegs x => simp only [exec, execLoadRegs, State.withinData]; split <;> rfl
  case drw x y n => simp only [exec, execDrw, State.withinData]; split <;> rfl
  all_goals rfl

/-- Nor does a cycle. -/
theorem cycle_withCyclesLeft (s t : State) (k : Nat) (h : s.cycle = .next t) :
    State.cycle { s with cyclesLeft := k } = .next { t with cyclesLeft := k } := by
  rcases cycle_cases s with ⟨hp, hc⟩ | ⟨hp, ins, hd, hc⟩ | ⟨hp, e, hd, hc⟩
  · rw [hc] at h; cases h
    rcases cycle_cases { s with cyclesLeft := k } with ⟨-, h⟩ | ⟨hp', -⟩ | ⟨hp', -⟩
    · exact h
    · exact absurd hp (by simpa using hp')
    · exact absurd hp (by simpa using hp')
  · rw [hc] at h
    have := exec_withCyclesLeft ins s.advance t k h
    rcases cycle_cases { s with cyclesLeft := k } with ⟨hp', -⟩ | ⟨-, ins', hd', h'⟩ | ⟨-, e', hd', -⟩
    · exact absurd hp' (by simpa using hp)
    · have : ins' = ins := by simpa [hd] using hd'.symm
      subst this; exact h'.trans this
    · simp [hd] at hd'
  · rw [hc] at h; cases h
    rcases cycle_cases { s with cyclesLeft := k } with ⟨hp', -⟩ | ⟨-, ins', hd', h'⟩ | ⟨-, e', hd', h'⟩
    · exact absurd hp' (by simpa using hp)
    · simp [hd] at hd'
    · exact h'

/-- Running on from a step of the machine (Host/Core.lean). -/
theorem core_run_succ {s t : State} (k : Nat) (h : step s = .next t) :
    Sys2Proof.core.run (k + 1) s = Sys2Proof.core.run k t := by
  have h : Sys2Proof.core.step s = .next t := h
  rw [Host.Core.run.eq_2 Sys2Proof.core s k, h]

end Sys2Proof.Machine
end

