-- ==== Sys2Proof/Tests/Slice0.lean ====
section
/-!
SUPPORT. The model's own tests. Words are written out from the patterns and the bit fields of spec/30_encoding.md R61 and R64,
expected results are those of spec/95_test_vectors.md, each named by its row there; none is the model's own answer. After them
stands, for every statement with hypotheses, a concrete case that meets them.
-/
namespace Sys2Proof.Tests

open Sys2Proof Sys2Proof.Machine

/-- Reset with some registers set. -/
def regs (l : List (Reg × Byte)) : State := l.foldl (fun s p => s.setV p.1 p.2) State.reset

/-- One step on a state with the word `w` placed where the step fetches. -/
def ran (s : State) (w : Nat) : State :=
  match step (s.withFetchWord 16 w) with
  | .next t => t
  | .fault _ | .refused _ => s

/-- The state of a meaning's answer. -/
def done (r : Result) : State :=
  match r with
  | .next t => t
  | .fault _ | .refused _ => State.reset

/-- Bytes put at an address of a state's memory. -/
def withBytes (s : State) (a : Nat) (bs : List Byte) : State := { s with mem := s.mem.writeBytes a bs }

/-! ## Well-formedness: each check refuses -/

theorem test_sys_is_not_clear_screen : Instr.wellFormed (.sys 0x0E0#12) = false := by decide
theorem test_sys_is_not_return : Instr.wellFormed (.sys 0x0EE#12) = false := by decide
theorem test_sys_other_words : Instr.wellFormed (.sys 0x1E0#12) = true ∧ Instr.wellFormed (.sys 0x000#12) = true := by decide
theorem test_reserved5_is_not_skip : Instr.wellFormed (.reserved5 0x120#12) = false := by decide
theorem test_reserved8_is_no_instruction :
    Instr.wellFormed (.reserved8 0x127#12) = false ∧ Instr.wellFormed (.reserved8 0x12E#12) = false ∧
    Instr.wellFormed (.reserved8 0x128#12) = true := by decide
theorem test_reserved9_is_not_skip : Instr.wellFormed (.reserved9 0x120#12) = false := by decide
theorem test_reservedE_is_no_key_skip :
    Instr.wellFormed (.reservedE 0x19E#12) = false ∧ Instr.wellFormed (.reservedE 0x1A1#12) = false := by decide
theorem test_reservedF_is_no_instruction :
    [0x107#12, 0x10A#12, 0x115#12, 0x118#12, 0x11E#12, 0x129#12, 0x133#12, 0x155#12, 0x165#12].any
      (fun low => Instr.wellFormed (.reservedF low)) = false := by decide

/-! ## Decoding: the word of every constructor, bit by bit, `t x y n` or `t x kk` or `t nnn` -/

theorem test_decode_family_0 :
    decodeTableWord 16 0b0000000011100000 = some .cls ∧ decodeTableWord 16 0b0000000011101110 = some .ret ∧
    decodeTableWord 16 0b0000000111100000 = some (.sys 0x1E0#12) := by decide

theorem test_decode_jumps :
    decodeTableWord 16 0b0001001000110100 = some (.jp 0x234#12) ∧
    decodeTableWord 16 0b0010001011110000 = some (.call 0x2F0#12) ∧
    decodeTableWord 16 0b1011001100000000 = some (.jpV0 0x300#12) := by decide

theorem test_decode_skips :
    decodeTableWord 16 0b0011001101000010 = some (.seImm 3 0x42#8) ∧
    decodeTableWord 16 0b0100001101000010 = some (.sneImm 3 0x42#8) ∧
    decodeTableWord 16 0b0101000100100000 = some (.seReg 1 2) ∧
    decodeTableWord 16 0b1001000100100000 = some (.sneReg 1 2) := by decide

theorem test_decode_immediates :
    decodeTableWord 16 0b0110001110011100 = some (.ldImm 3 0x9C#8) ∧
    decodeTableWord 16 0b0111001000000010 = some (.addImm 2 0x02#8) ∧
    decodeTableWord 16 0b1010001011110000 = some (.ldI 0x2F0#12) ∧
    decodeTableWord 16 0b1100001100001111 = some (.rnd 3 0x0F#8) := by decide

theorem test_decode_family_8 :
    decodeTableWord 16 0b1000000100100000 = some (.ldReg 1 2) ∧ decodeTableWord 16 0b1000000100100001 = some (.orReg 1 2) ∧
    decodeTableWord 16 0b1000000100100010 = some (.andReg 1 2) ∧ decodeTableWord 16 0b1000000100100011 = some (.xorReg 1 2) ∧
    decodeTableWord 16 0b1000000100100100 = some (.addReg 1 2) ∧ decodeTableWord 16 0b1000000100100101 = some (.subReg 1 2) ∧
    decodeTableWord 16 0b1000000100100110 = some (.shr 1 2) ∧ decodeTableWord 16 0b1000000100100111 = some (.subnReg 1 2) ∧
    decodeTableWord 16 0b1000000100101110 = some (.shl 1 2) := by decide

theorem test_decode_draw_and_keys :
    decodeTableWord 16 0b1101000100100101 = some (.drw 1 2 5#4) ∧ decodeTableWord 16 0b1110010110011110 = some (.skp 5) ∧
    decodeTableWord 16 0b1110010110100001 = some (.sknp 5) := by decide

theorem test_decode_family_F :
    decodeTableWord 16 0b1111001100000111 = some (.ldVxDt 3) ∧ decodeTableWord 16 0b1111001100001010 = some (.ldVxK 3) ∧
    decodeTableWord 16 0b1111001100010101 = some (.ldDtVx 3) ∧ decodeTableWord 16 0b1111001100011000 = some (.ldStVx 3) ∧
    decodeTableWord 16 0b1111001100011110 = some (.addI 3) ∧ decodeTableWord 16 0b1111001100101001 = some (.ldF 3) ∧
    decodeTableWord 16 0b1111001100110011 = some (.ldB 3) ∧ decodeTableWord 16 0b1111001101010101 = some (.storeRegs 3) ∧
    decodeTableWord 16 0b1111001101100101 = some (.loadRegs 3) := by decide

theorem test_decode_unrecognized :
    decodeTableWord 16 0b0101000100100011 = some (.reserved5 0x123#12) ∧
    decodeTableWord 16 0b1000000100101000 = some (.reserved8 0x128#12) ∧
    decodeTableWord 16 0b1001000100100001 = some (.reserved9 0x121#12) ∧
    decodeTableWord 16 0b1110000110011111 = some (.reservedE 0x19F#12) ∧
    decodeTableWord 16 0b1111000100000000 = some (.reservedF 0x100#12) := by decide

/-! ## Reset and the memory form -/

theorem test_reset_memory_wf : State.reset.mem.wf := by decide
theorem test_write_reset_content_lists_nothing :
    Memory.write (Memory.write [] 0x300 0x05#8) 0x300 0x00#8 = [] ∧ Memory.write [] 0x000 0xF0#8 = [] := by decide
theorem test_writes_are_sorted :
    Memory.writeBytes [(0x301, 0x07#8)] 0x300 [0x01#8, 0x02#8] = [(0x300, 0x01#8), (0x301, 0x02#8)] := by decide

/-! ## Control transfer (spec/95_test_vectors.md section 2.2) -/

theorem test_jp : (ran State.reset 0x1234).pc = 0x0234#16 := by decide
theorem test_sys : (ran State.reset 0x01E0).pc = 0x01E0#16 := by decide
theorem test_call :
    let t := ran State.reset 0x22F0
    t.pc = 0x02F0#16 ∧ t.sp = 1#6 ∧ t.mem.readBytes 0xEA0 2 = [0x02, 0x02] := by decide
theorem test_call_overflow :
    let t := ran { State.reset with sp := 48#6 } 0x2200
    t.faultReport = (true, 4#3, 0x0200#16, 0x2200#16, 0#17) ∧ t.sp = 48#6 ∧ t.pc = 0x0202#16 := by decide
theorem test_ret :
    let t := ran (withBytes { State.reset with sp := 2#6, pc := 0x208#16 } 0xEA0 [0x02, 0x02, 0x02, 0x06]) 0x00EE
    t.pc = 0x0206#16 ∧ t.sp = 1#6 := by decide
theorem test_ret_underflow :
    let t := ran State.reset 0x00EE
    t.faultReport = (true, 5#3, 0x0200#16, 0x00EE#16, 0#17) ∧ t.sp = 0#6 ∧ t.pc = 0x0202#16 := by decide
theorem test_jpV0 : (ran (regs [(0, 0xFF#8)]) 0xBFFF).pc = 0x10FE#16 := by decide
theorem test_seImm :
    (ran (regs [(3, 0x42#8)]) 0x3342).pc = 0x0204#16 ∧ (ran (regs [(3, 0x41#8)]) 0x3342).pc = 0x0202#16 := by decide
theorem test_sneImm :
    (ran (regs [(3, 0x42#8)]) 0x4342).pc = 0x0202#16 ∧ (ran (regs [(3, 0x41#8)]) 0x4342).pc = 0x0204#16 := by decide
theorem test_seReg :
    (ran (regs [(1, 7#8), (2, 7#8)]) 0x5120).pc = 0x0204#16 ∧ (ran (regs [(1, 7#8), (2, 8#8)]) 0x5120).pc = 0x0202#16 := by
  decide
theorem test_sneReg :
    (ran (regs [(1, 7#8), (2, 8#8)]) 0x9120).pc = 0x0204#16 ∧ (ran (regs [(1, 7#8), (2, 7#8)]) 0x9120).pc = 0x0202#16 := by
  decide

/-! ## Arithmetic and logic (section 2.3) -/

theorem test_ldImm : (ran State.reset 0x63AB).getV 3 = 0xAB#8 := by decide
theorem test_addImm_no_carry_flag :
    (ran (regs [(2, 0xFF#8)]) 0x7202).getV 2 = 0x01#8 ∧ (ran (regs [(2, 0xFF#8)]) 0x7202).getV 15 = 0x00#8 := by decide
theorem test_ldReg : (ran (regs [(1, 0x12#8), (2, 0x34#8)]) 0x8120).getV 1 = 0x34#8 := by decide
theorem test_orReg : (ran (regs [(1, 0xF0#8), (2, 0x0F#8)]) 0x8121).getV 1 = 0xFF#8 := by decide
theorem test_andReg : (ran (regs [(1, 0xF0#8), (2, 0x3C#8)]) 0x8122).getV 1 = 0x30#8 := by decide
theorem test_xorReg : (ran (regs [(1, 0xF0#8), (2, 0x3C#8)]) 0x8123).getV 1 = 0xCC#8 := by decide
theorem test_addReg :
    let t := ran (regs [(1, 0xC8#8), (2, 0x64#8)]) 0x8124
    t.getV 1 = 0x2C#8 ∧ t.getV 15 = 0x01#8 := by decide
theorem test_addReg_flag_last : (ran (regs [(15, 0xFF#8), (1, 0x02#8)]) 0x8F14).getV 15 = 0x01#8 := by decide
theorem test_subReg :
    let t := ran (regs [(1, 0x05#8), (2, 0x0A#8)]) 0x8125
    t.getV 1 = 0xFB#8 ∧ t.getV 15 = 0x00#8 := by decide
theorem test_subReg_equal : (ran (regs [(1, 0x0A#8), (2, 0x0A#8)]) 0x8125).getV 15 = 0x01#8 := by decide
theorem test_subnReg :
    let t := ran (regs [(1, 0x05#8), (2, 0x0A#8)]) 0x8127
    t.getV 1 = 0x05#8 ∧ t.getV 15 = 0x01#8 := by decide
theorem test_subnReg_borrow : (ran (regs [(15, 0x05#8), (1, 0x03#8)]) 0x8F17).getV 15 = 0x00#8 := by decide
theorem test_shr_ignores_vy :
    let t := ran (regs [(1, 0xFF#8), (2, 0x00#8)]) 0x8126
    t.getV 1 = 0x7F#8 ∧ t.getV 15 = 0x01#8 ∧ t.getV 2 = 0x00#8 := by decide
theorem test_shl :
    let t := ran (regs [(1, 0x81#8)]) 0x810E
    t.getV 1 = 0x02#8 ∧ t.getV 15 = 0x01#8 := by decide
theorem test_shl_of_vf : (ran (regs [(15, 0x7F#8)]) 0x8F0E).getV 15 = 0x00#8 := by decide
theorem test_rnd : (ran { State.reset with rndIn := [0xB7#8] } 0xC30F).getV 3 = 0x07#8 := by decide

/-! ## Address register and memory (section 2.4) -/

theorem test_ldI : (ran State.reset 0xA2F0).i = 0x02F0#16 := by decide
theorem test_addI_wraps : (ran { regs [(1, 0x01#8)] with i := 0xFFFF#16 } 0xF11E).i = 0x0000#16 := by decide
theorem test_addI_no_flag :
    let t := ran { regs [(1, 0x01#8), (15, 0x09#8)] with i := 0x0FFF#16 } 0xF11E
    t.i = 0x1000#16 ∧ t.getV 15 = 0x09#8 ∧ t.fault = false := by decide
theorem test_ldF : (ran (regs [(4, 0x0A#8)]) 0xF429).i = 0x0032#16 := by decide
theorem test_ldF_no_mask : (ran (regs [(15, 0xFF#8)]) 0xFF29).i = 0x04FB#16 := by decide
theorem test_ldB :
    (ran { regs [(0, 0x9D#8)] with i := 0x0300#16 } 0xF033).mem.readBytes 0x300 3 = [0x01, 0x05, 0x07] := by decide
theorem test_ldB_bounds :
    let t := ran { regs [(0, 0xFF#8)] with i := 0x0FFE#16 } 0xF033
    t.faultReport = (true, 3#3, 0x0200#16, 0xF033#16, 0x1000#17) ∧ t.mem.readBytes 0xFFE 2 = [0x00, 0x00] := by decide
theorem test_storeRegs :
    let t := ran { regs [(0, 0x11#8), (1, 0x22#8), (2, 0x33#8)] with i := 0x0400#16 } 0xF255
    t.mem.readBytes 0x400 4 = [0x11, 0x22, 0x33, 0x00] ∧ t.i = 0x0400#16 := by decide
theorem test_storeRegs_no_wrap :
    (ran { State.reset with i := 0xFFFF#16 } 0xF055).faultReport = (true, 3#3, 0x0200#16, 0xF055#16, 0xFFFF#17) := by decide
theorem test_loadRegs :
    let t := ran (withBytes { regs [(3, 0x77#8)] with i := 0x0400#16 } 0x400 [0xAA, 0xBB, 0xCC]) 0xF265
    [t.getV 0, t.getV 1, t.getV 2, t.getV 3] = [0xAA, 0xBB, 0xCC, 0x77] ∧ t.i = 0x0400#16 := by decide
theorem test_loadRegs_bounds :
    (ran { State.reset with i := 0x0FFF#16 } 0xF165).faultReport = (true, 3#3, 0x0200#16, 0xF165#16, 0x1000#17) := by decide

/-! ## Display (section 2.5; `VF` starts at 9) -/

/-- Reset with `V1`, `V2`, `VF = 9` and `I`. -/
def draws (vx vy : Byte) (i : Word) : State := { regs [(1, vx), (2, vy), (15, 0x09#8)] with i := i }

theorem test_cls :
    let s := withBytes (withBytes (withBytes (regs [(15, 5#8)]) 0xF00 [0xFF]) 0xFFF [0x01]) 0xEFF [0x77]
    let t := ran s 0x00E0
    t.mem.readBytes 0xEFF 2 = [0x77, 0x00] ∧ t.mem.read 0xFFF = 0x00#8 ∧ t.getV 15 = 5#8 := by decide
theorem test_drw_straddles_two_bytes :
    let t := ran (withBytes (draws 0x05#8 0x01#8 0x300#16) 0x300 [0xFF]) 0xD121
    t.mem.readBytes 0xF08 2 = [0x07, 0xF8] ∧ t.getV 15 = 0x00#8 := by decide
theorem test_drw_snapshot_and_collision :
    let t := ran (withBytes (draws 0x00#8 0x00#8 0xF00#16) 0xF00 [0xFF, 0x0F]) 0xD122
    t.mem.readBytes 0xF00 2 = [0x00, 0x0F] ∧ t.mem.read 0xF08 = 0x0F#8 ∧ t.getV 15 = 0x01#8 := by decide

/-! ## Keys and timers (section 2.6) -/

theorem test_skp :
    (ran { regs [(5, 0x0A#8)] with keysIn := [0x0400#16] } 0xE59E).pc = 0x0204#16 ∧
    (ran { regs [(5, 0x1A#8)] with keysIn := [0x0400#16] } 0xE59E).pc = 0x0202#16 := by decide
theorem test_sknp :
    (ran { regs [(5, 0x0A#8)] with keysIn := [0x0400#16] } 0xE5A1).pc = 0x0202#16 ∧
    (ran { regs [(5, 0x1A#8)] with keysIn := [0x0400#16] } 0xE5A1).pc = 0x0204#16 := by decide
theorem test_ldVxDt : (ran { State.reset with dt := 0x3C#8 } 0xF107).getV 1 = 0x3C#8 := by decide
theorem test_ldDtVx : (ran (regs [(1, 0x3C#8)]) 0xF115).dt = 0x3C#8 := by decide
theorem test_ldStVx : (ran (regs [(1, 0x3C#8)]) 0xF118).sound = 0x3C#8 := by decide
theorem test_ldVxK_ends_the_step_with_a_tick :
    let t := ran { State.reset with dt := 0x05#8 } 0xF30A
    t.waiting = (true, 3) ∧ t.dt = 0x04#8 ∧ t.cyclesLeft = 0 := by decide
theorem test_deliver_key :
    (done (step { State.reset with wait := true, waitReg := 3, hostOps := [.deliverKey 0xB#4] })).getV 3 = 0x0B#8 := by decide

/-! ## Unrecognized words (section 2.1) -/

theorem test_unrecognized_events :
    (ran State.reset 0x5123).events = [.diag 0x0200#16 0x5123#16] ∧
    (ran State.reset 0x8128).events = [.diag 0x0200#16 0x8128#16] ∧
    (ran State.reset 0x9121).events = [.diag 0x0200#16 0x9121#16] ∧
    (ran State.reset 0xE19F).events = [.diag 0x0200#16 0xE19F#16] ∧
    (ran State.reset 0xF100).events = [.diag 0x0200#16 0xF100#16] := by decide

/-! ## Witnesses: for every statement with hypotheses, a concrete case that meets them, at the ends of its ranges -/

/-- A running engine at address `a`. -/
def running (a : Word) : State := { State.reset with pc := a, cyclesLeft := 2 }

/-- A suspended and a halted engine with operations of the host waiting. -/
def suspended (ops : List HostOp) : State := { State.reset with wait := true, waitReg := 4, hostOps := ops }
def halted (ops : List HostOp) : State := { State.reset with fault := true, faultCause := 5#3, hostOps := ops }

theorem witness_EncodedInstructionDecodesToItself :
    Instr.wellFormed (.reserved8 0xFFF#12) = true ∧ Instr.wellFormed (.sys 0x000#12) = true ∧
    Instr.wellFormed (.drw 15 15 15#4) = true := by decide

/-- Both sides of each clause, at the low and the high word of a family. -/
theorem witness_UnrecognizedWordsAreThoseOfTheTable :
    decodeWord 0x5001#16 = .ok (.reserved5 0x001#12) ∧ decodeWord 0x5FF0#16 = .ok (.seReg 15 15) ∧
    decodeWord 0x8008#16 = .ok (.reserved8 0x008#12) ∧ decodeWord 0x8FFF#16 = .ok (.reserved8 0xFFF#12) ∧
    decodeWord 0x8007#16 = .ok (.subnReg 0 0) ∧ decodeWord 0x9FFF#16 = .ok (.reserved9 0xFFF#12) ∧
    decodeWord 0xE09D#16 = .ok (.reservedE 0x09D#12) ∧ decodeWord 0xF066#16 = .ok (.reservedF 0x066#12) :=
  ⟨rfl, rfl, rfl, rfl, rfl, rfl, rfl, rfl⟩

theorem witness_ClearAndReturnAreWholeWords :
    decodeWord 0x00E0#16 = .ok .cls ∧ decodeWord 0x00EE#16 = .ok .ret ∧ decodeWord 0x00EF#16 = .ok (.sys 0x0EF#12) ∧
    decodeWord 0x0FFF#16 = .ok (.sys 0xFFF#12) := ⟨rfl, rfl, rfl, rfl⟩

theorem witness_ResetLeavesTheSpecValues : 0x050 ≤ 0x050 ∧ 0x050 ≤ 0xFFF := by decide

/-- The last address a word can be fetched from; it decodes to the jump `0NNN`. -/
theorem witness_StepRunsTheDecodedInstruction :
    (running 0xFFE#16).Running ∧ (running 0xFFE#16).pc.toNat ≤ 0xFFE ∧
    decodeWord (wordOfBytes ((running 0xFFE#16).mem.read 0xFFE) ((running 0xFFE#16).mem.read 0xFFF)) = .ok (.sys 0#12) ∧
    exec (.sys 0#12) { running 0xFFE#16 with pc := 0xFFE#16 + 2#16 } = .next { running 0xFFE#16 with pc := 0x000#16 } :=
  ⟨by decide, by decide, rfl, rfl⟩

theorem witness_FetchAboveMemoryLatchesFetchBounds :
    (running 0xFFF#16).Running ∧ 0xFFE < (running 0xFFF#16).pc.toNat ∧ 0xFFE < (running 0xFFFF#16).pc.toNat := by decide

theorem witness_StoreIsSeenByTheNextFetch : (running 0xFFE#16).pc.toNat ≤ 0xFFE := by decide

theorem witness_NothingChangesWithoutTheHost : State.reset.cyclesLeft = 0 ∧ State.reset.hostOps = [] := by decide

/-- One state for each clause: suspended, halted, running with `n = 0`, running with `n = 1`. -/
theorem witness_StepOperationBegins :
    (suspended [.step 5]).cyclesLeft = 0 ∧ (suspended [.step 5]).condition ≠ .running ∧
    (halted [.step 0]).cyclesLeft = 0 ∧ (halted [.step 0]).condition ≠ .running ∧
    (launch [.step 0] [] []).cyclesLeft = 0 ∧ (launch [.step 0] [] []).condition = .running ∧
    (launch [.step 1] [] []).hostOps = [.step 1] ∧ (launch [.step 1] [] []).condition = .running := by decide

theorem witness_MachineStepsRunTheLoopOfStepN :
    (launch [.step 3, .reset] [] []).cyclesLeft = 0 ∧ (launch [.step 3, .reset] [] []).hostOps = .step 3 :: [.reset] := by decide

theorem witness_DeliverKeyResolvesThePendingWait :
    (suspended [.deliverKey 15#4]).cyclesLeft = 0 ∧ (suspended [.deliverKey 15#4]).condition = .suspended ∧
    (halted [.deliverKey 0#4]).cyclesLeft = 0 ∧ (halted [.deliverKey 0#4]).condition ≠ .suspended ∧
    (launch [.deliverKey 0#4] [] []).condition ≠ .suspended := by decide

theorem witness_LoadErrorsChangeNothing :
    (launch [.load []] [] []).cyclesLeft = 0 ∧ ([] : List Byte).length = 0 ∧ 3232 < (List.replicate 3233 0x01#8).length :=
  ⟨rfl, rfl, by rw [List.length_replicate]; decide⟩

theorem witness_LoadResetsAndCopiesTheProgram :
    (launch [.load [0x12#8]] [] []).cyclesLeft = 0 ∧ (launch [.load [0x12#8]] [] []).hostOps = [.load [0x12#8]] ∧
    0 < [0x12#8].length ∧ 0 < (List.replicate 3232 0x01#8).length ∧ (List.replicate 3232 0x01#8).length ≤ 3232 :=
  ⟨rfl, rfl, by decide, by rw [List.length_replicate]; decide, by rw [List.length_replicate]⟩

theorem witness_ResetOperationResetsTheEngine :
    (halted [.reset]).cyclesLeft = 0 ∧ (halted [.reset]).hostOps = .reset :: [] := by decide

/-- A halted engine's step: the frame of the first clause, and the `reset` and `load` of the second. -/
theorem witness_HaltedEngineKeepsItsState :
    (halted [.step 1]).fault = true ∧ step (halted [.step 1]) = .next (halted []) ∧
    step (halted [.reset]) = .next State.reset ∧ ∃ t, step (halted [.load [0x12#8]]) = .next t :=
  ⟨rfl, rfl, rfl, _, rfl⟩

theorem witness_AddAndSubtractResultsAndFlags : (0 : Reg) ≠ 15 ∧ (14 : Reg) ≠ 15 := by decide

theorem witness_ShiftResultsAndFlags : (14 : Reg) ≠ 15 := by decide

theorem witness_RandomResultIsOneMaskedDraw :
    (launch [] [] [0xB7#8]).rndIn = 0xB7#8 :: [] ∧ State.reset.rndIn = [] ∧ (0 : Reg) ≠ 15 := by decide

theorem witness_CallPushesTheReturnAddress :
    State.reset.sp.toNat < 48 ∧ (State.sp { State.reset with sp := 47#6 }).toNat < 48 := by decide

theorem witness_ReturnPopsTheReturnAddress :
    0 < (State.sp { State.reset with sp := 1#6 }).toNat ∧ 0 < (State.sp { State.reset with sp := 48#6 }).toNat := by decide

theorem witness_StackFaultsAreLatched :
    State.reset.pc = 0x1FE#16 + 2#16 ∧ State.reset.sp = 0#6 ∧ (State.sp { State.reset with sp := 48#6 }) = 48#6 := by decide

theorem witness_CallThenReturnComesBack : (State.sp { State.reset with sp := 47#6 }).toNat < 48 := by decide

/-- A state whose `I` is `a`. -/
def indexed (a : Word) : State := { State.reset with i := a }

theorem witness_BcdStoresTheDecimalDigits : (indexed 0xFFD#16).i.toNat + 2 ≤ 0xFFF ∧ (indexed 0#16).i.toNat + 2 ≤ 0xFFF := by
  decide

theorem witness_BlockStoreWritesTheRegisters :
    (indexed 0xFF0#16).i.toNat + (15 : Reg).val ≤ 0xFFF ∧ (indexed 0xFFF#16).i.toNat + (0 : Reg).val ≤ 0xFFF ∧
    (0 : Reg) ≤ 0 ∧ (15 : Reg) ≤ 15 := by decide

theorem witness_BlockLoadReadsTheRegisters :
    (indexed 0xFFF#16).i.toNat + (0 : Reg).val ≤ 0xFFF ∧ (0 : Reg) ≤ 0 ∧ (0 : Reg) < 1 := by decide

theorem witness_BlockStoreThenLoadRestores :
    (indexed 0xFF0#16).i.toNat + (15 : Reg).val ≤ 0xFFF ∧ ∃ t, exec (.storeRegs 15) (indexed 0xFF0#16) = .next t :=
  ⟨by decide, _, rfl⟩

/-- The least `I` out of bounds for each clause: BCD, sixteen registers, one register, fifteen sprite rows, one row. -/
theorem witness_DataBoundsFaultsAreLatched :
    State.reset.pc = 0x1FE#16 + 2#16 ∧ 0xFFF < (indexed 0xFFE#16).i.toNat + 2 ∧
    0xFFF < (indexed 0xFF1#16).i.toNat + (15 : Reg).val ∧ 0xFFF < (indexed 0x1000#16).i.toNat + (0 : Reg).val ∧
    0 < (15#4).toNat ∧ 0xFFF < (indexed 0xFF2#16).i.toNat + (15#4).toNat - 1 ∧
    0 < (1#4).toNat ∧ 0xFFF < (indexed 0x1000#16).i.toNat + (1#4).toNat - 1 := by decide

theorem witness_ClearScreenZeroesVideoMemory : 0xF00 ≤ 0xF00 ∧ 0xFFF ≤ 0xFFF := by decide

/-- The greatest `I` for fifteen rows, and any `I` for none. -/
theorem witness_DrawTogglesPixelsAndReportsCollision :
    (indexed 0xFF1#16).spriteInBounds 15#4 ∧ (indexed 0xFFFF#16).spriteInBounds 0#4 :=
  ⟨Or.inr (by decide), Or.inl (by decide)⟩

theorem witness_DrawingTwiceRestoresVideoMemory :
    (0#4).toNat = 0 ∧ (indexed 0xEF1#16).i.toNat + (15#4).toNat ≤ 0xF00 ∧ (0 : Reg) ≠ 15 ∧ (14 : Reg) ≠ 15 ∧
    ∃ t, exec (.drw 0 14 15#4) (indexed 0xEF1#16) = .next t := ⟨rfl, by decide, by decide, by decide, _, rfl⟩

/-- One state for each way off the frame: column 64, row 32, no rows. -/
theorem witness_DrawOffTheFrameDrawsNothing :
    (draws 0x40#8 0x00#8 0x300#16).spriteInBounds 1#4 ∧ 64 ≤ ((draws 0x40#8 0x00#8 0x300#16).getV 1).toNat ∧
    (draws 0x00#8 0x20#8 0x300#16).spriteInBounds 1#4 ∧ 32 ≤ ((draws 0x00#8 0x20#8 0x300#16).getV 2).toNat ∧
    (draws 0x00#8 0x00#8 0x1000#16).spriteInBounds 0#4 ∧ (0#4).toNat = 0 :=
  ⟨Or.inr (by decide), by decide, Or.inr (by decide), by decide, Or.inl rfl, rfl⟩

theorem witness_VideoOutputHoldsThePixels : 63 < 64 ∧ 31 < 32 := by decide

theorem witness_KeySkipResults :
    (launch [] [0x8000#16] []).keysIn = 0x8000#16 :: [] ∧ State.reset.keysIn = [] := by decide

/-- A running engine that fetches `F40A`, at the last address a word can be fetched from, with operations of the host waiting. -/
def awaiting (ops : List HostOp) : State := { withBytes (running 0xFFE#16) 0xFFE [0xF4, 0x0A] with hostOps := ops }

/-- Each clause with no, one and two `step(n)` issued before what follows. -/
theorem witness_WaitForKeySuspendsUntilDelivery :
    (awaiting []).Running ∧ (awaiting []).pc.toNat ≤ 0xFFE ∧
    decodeWord (wordOfBytes ((awaiting []).mem.read 0xFFE) ((awaiting []).mem.read 0xFFF)) = .ok (.ldVxK 4) ∧
    (awaiting [.reset]).hostOps = ([] : List Nat).map HostOp.step ++ [.reset] ∧
    (awaiting [.step 10, .step 0]).hostOps = [10, 0].map HostOp.step ++ [] ∧
    (awaiting [.deliverKey 0#4]).hostOps = ([] : List Nat).map HostOp.step ++ .deliverKey 0#4 :: [] ∧
    (awaiting [.step 10, .deliverKey 15#4, .step 1]).hostOps = [10].map HostOp.step ++ .deliverKey 15#4 :: [.step 1] :=
  ⟨by decide, by decide, rfl, rfl, rfl, rfl, rfl⟩

theorem witness_UnrecognizedWordsOnlyEmitADiagnostic : State.reset.pc = 0x1FE#16 + 2#16 := by decide

/-- Every case of the list takes a fault on some state. -/
theorem witness_OnlyTheListedConditionsRaiseFaults :
    State.reset.fault = false ∧ (done (exec .ret State.reset)).fault = true ∧
    (done (exec (.call 0x200#12) { State.reset with sp := 48#6 })).fault = true ∧
    (done (exec (.ldB 0) (indexed 0xFFE#16))).fault = true ∧
    (done (exec (.storeRegs 1) (indexed 0xFFF#16))).fault = true ∧
    (done (exec (.loadRegs 1) (indexed 0xFFF#16))).fault = true ∧
    (done (exec (.drw 0 0 1#4) (indexed 0x1000#16))).fault = true := by decide

/-- Every case of the list changes a byte on some state. -/
theorem witness_OnlyStoringInstructionsChangeMemory :
    (done (exec .cls (withBytes State.reset 0xFFF [0x01]))).mem.read 0xFFF ≠ (withBytes State.reset 0xFFF [0x01]).mem.read 0xFFF ∧
    (done (exec (.call 0x200#12) State.reset)).mem.read 0xEA0 ≠ State.reset.mem.read 0xEA0 ∧
    (done (exec (.drw 0 0 1#4) State.reset)).mem.read 0xF00 ≠ State.reset.mem.read 0xF00 ∧
    (done (exec (.ldB 0) { regs [(0, 0xFF#8)] with i := 0xFFD#16 })).mem.read 0xFFF ≠ State.reset.mem.read 0xFFF ∧
    (done (exec (.storeRegs 0) { regs [(0, 0xFF#8)] with i := 0xFFF#16 })).mem.read 0xFFF ≠ State.reset.mem.read 0xFFF := by
  decide

theorem witness_SpecialRegistersHaveTheirOnlyWriters :
    (done (exec (.call 0x200#12) State.reset)).sp ≠ State.reset.sp ∧ (done (exec (.ldI 1#12) State.reset)).i ≠ State.reset.i ∧
    (done (exec (.ldDtVx 0) (regs [(0, 1#8)]))).dt ≠ State.reset.dt ∧
    (done (exec (.ldStVx 0) (regs [(0, 1#8)]))).st ≠ State.reset.st ∧
    (done (exec (.ldVxK 1) State.reset)).wait ≠ State.reset.wait ∧
    (done (exec (.jp 0x300#12) State.reset)).pc ≠ State.reset.pc := by decide

theorem witness_VfHasItsOnlyWriters :
    (done (exec (.shr 0 0) (regs [(0, 1#8)]))).getV 15 ≠ (regs [(0, 1#8)]).getV 15 ∧
    (done (exec (.loadRegs 15) State.reset)).getV 15 ≠ State.reset.getV 15 ∧
    (done (exec (.ldImm 15 7#8) State.reset)).getV 15 ≠ State.reset.getV 15 := by decide

theorem witness_InputsMatterOnlyWhereSampled :
    (∃ t, exec .cls State.reset = .next t) ∧ (∀ x, Instr.cls ≠ .skp x ∧ Instr.cls ≠ .sknp x) ∧
    (∀ x kk, Instr.cls ≠ .rnd x kk) := ⟨⟨_, rfl⟩, fun _ => ⟨nofun, nofun⟩, fun _ _ => nofun⟩

theorem witness_EqualBytesMakeEqualMemories :
    Memory.wf [(0x000, 0x00#8), (0xFFF, 0x01#8)] ∧ Memory.wf (Memory.write [(0x000, 0x00#8)] 0xFFF 0x01#8) ∧
    ∀ a, Memory.read [(0x000, 0x00#8), (0xFFF, 0x01#8)] a = Memory.read (Memory.write [(0x000, 0x00#8)] 0xFFF 0x01#8) a :=
  ⟨by decide, by decide, fun _ => rfl⟩

theorem witness_EveryStepKeepsTheInvariant :
    (launch [.step 2] [] []).Inv ∧ (∃ t, step (launch [.step 2] [] []) = .next t) ∧
    (running 0x200#16).Inv ∧ (∃ t, step (running 0x200#16) = .next t) := ⟨by decide, ⟨_, rfl⟩, by decide, ⟨_, rfl⟩⟩

theorem witness_ReachableStatesHoldTheInvariant :
    Reachable (launch [.step 2] [] []) ∧ (launch [.step 2] [] []).fault = false ∧
    ∃ t, Reachable t ∧ t.cyclesLeft = 2 :=
  ⟨.launched _ _ _, rfl, _, .stepped (.launched [.step 2] [] []) rfl, rfl⟩

/-- A run from reset reaches a halted state: `00EE` loaded and run takes the StackUnderflow fault. -/
theorem witness_a_reachable_fault : ∃ t, Reachable t ∧ t.fault = true :=
  ⟨_, .stepped (.stepped (.stepped (.launched [.load [0x00#8, 0xEE#8], .step 1] [] []) rfl) rfl) rfl, by decide⟩

end Sys2Proof.Tests
end

section
/-! The address register set to a literal (spec/43_index_memory.md R140). -/
namespace Sys2Proof.Machine

/-- Zero extension of a 12-bit literal keeps its value (R63). -/
@[simp] theorem zext12_toNat (nnn : Lit12) : (zext12 nnn).toNat = nnn.toNat :=
  BitVec.toNat_setWidth_of_le (by decide)

/-- `ANNN` writes the address register and no other part of the state (R140). -/
theorem exec_ldI (nnn : Lit12) (s : State) : exec (.ldI nnn) s = .next { s with i := zext12 nnn } := rfl

/-- Settles O30: the next state differs in the address register alone, which holds the zero-extended literal. -/
theorem setIndexResult : Obligations.SetIndexResult := by
  intro s nnn
  have bytes : SameBytes s { s with i := zext12 nnn } := fun _ => rfl
  exact ⟨_, exec_ldI nnn s, zext12_toNat nnn, bytes, rfl⟩

end Sys2Proof.Machine
end

section
/-! Accesses through the address register that leave memory (spec/20_memory.md section 2, R190, R192). -/
namespace Sys2Proof.Machine

/-- Out of bounds, an access of `n` bytes by the instruction fetched at `a` latches DataBounds with the address `last` of its last
byte, and writes nothing else. -/
theorem withinData_latched {s : State} {a : Word} {n last : Nat} (ins : Instr) (done : State) (hpc : s.pc = a + 2#16)
    (hn : 0 < n) (hlast : s.i.toNat + (n - 1) = last) (hout : 0xFFF < last) :
    Latched 3#3 a (encode ins) last s (s.withinData ins n done) := by
  have hfetched : s.pc - 2#16 = a := by rw [hpc, BitVec.add_sub_cancel]
  rw [State.withinData_out _ _ _ _ ⟨hn, hlast ▸ hout⟩, State.raise_eq, hfetched, hlast]
  rfl

/-- Settles O36: each of the four forms makes its access under the bounds check, with 3, `x + 1`, `x + 1` and `n` bytes. -/
theorem dataBoundsFaultsAreLatched : Obligations.DataBoundsFaultsAreLatched := by
  intro s a x y n hpc
  refine ⟨fun hout => ?bcd, fun hout => ⟨?store, ?load⟩, fun hn hout => ?draw⟩
  case bcd => exact ⟨_, rfl, withinData_latched (.ldB x) _ hpc (by decide) rfl hout⟩
  case store => exact ⟨_, rfl, withinData_latched (.storeRegs x) _ hpc x.val.succ_pos rfl hout⟩
  case load => exact ⟨_, rfl, withinData_latched (.loadRegs x) _ hpc x.val.succ_pos rfl hout⟩
  case draw => exact ⟨_, rfl, withinData_latched (.drw x y n) _ hpc hn (by omega) hout⟩

end Sys2Proof.Machine
end

section
/-! Clear screen and draw sprite (spec/44_display.md): one draw as a state, what it does to pixels, registers and bytes, and from
that the statements about one draw and about two. -/
namespace Sys2Proof.Machine

/-! ## Clear screen -/

/-- `00E0` restores the bytes of video memory and writes no other part of the state (R160). -/
theorem exec_cls (s : State) : exec .cls s = .next { s with mem := s.mem.restore 0xF00 256 } := rfl

/-- Settles O37: the restored range lies above the font, so its reset content is zero. -/
theorem clearScreenZeroesVideoMemory : Obligations.ClearScreenZeroesVideoMemory := by
  intro s
  refine ⟨_, exec_cls s, fun a hlo hhi => ?_, fun a hout => ?_, rfl⟩
  · exact Memory.read_restore_inside s.mem 0xF00 256 a (by decide) ⟨hlo, by omega⟩
  · exact Memory.read_restore_outside s.mem 0xF00 256 a hout

/-! ## One draw -/

/-- The memory and the collision that the rows of `DXYN` leave, drawn with the bytes of its sprite read before (R161, R165). -/
def State.drawing (s : State) (x y : Reg) (n : Nibble) : Memory × Bool :=
  plotRows (s.getV x).toNat (s.getV y).toNat (s.sprite n) (s.mem, false)

/-- The state after a draw whose sprite lies in memory. -/
def State.drawn (s : State) (x y : Reg) (n : Nibble) : State :=
  State.setVF { s with mem := (s.drawing x y n).1 } (s.drawing x y n).2

/-- The bit of the sprite of `DXYN` that meets a frame pixel, with the sprite's corner at `(V[x], V[y])` (R161, R163). -/
def State.metBit (s : State) (x y : Reg) (n : Nibble) (px py : Nat) : Bool :=
  spriteBit (s.sprite n) (s.getV x).toNat (s.getV y).toNat px py

/-- `DXYN` with its sprite in memory draws (R161, R166). -/
theorem exec_drw_inBounds {s : State} {n : Nibble} (x y : Reg) (h : s.spriteInBounds n) :
    exec (.drw x y n) s = .next (s.drawn x y n) := by
  have hb : n.toNat = 0 ∨ s.i.toNat + (n.toNat - 1) ≤ Config.memLast := by
    unfold State.spriteInBounds at h; omega
  exact congrArg Host.Outcome.next (State.withinData_in s (.drw x y n) n.toNat (s.drawn x y n) hb)

section OneDraw
variable (s : State) (x y : Reg) (n : Nibble)

/-- A draw toggles the frame pixels that a set sprite bit meets (R161 to R165). -/
theorem toggles_drawing : Toggles (s.metBit x y n) (s.mem, false) (s.drawing x y n) :=
  toggles_plotRows _ _ _ _

/-- A draw writes memory and registers only. -/
theorem State.drawn_eq : s.drawn x y n = { s with mem := (s.drawn x y n).mem, v := (s.drawn x y n).v } := rfl

/-- A frame pixel after a draw (R161, R164). -/
theorem State.drawn_pixel {px py : Nat} (hx : px < 64) (hy : py < 32) :
    (s.drawn x y n).mem.pixel px py = (s.mem.pixel px py ^^ s.metBit x y n px py) :=
  (toggles_drawing s x y n).pixels px py hx hy

/-- A draw leaves the bytes outside video memory alone. -/
theorem State.drawn_sameBytesOutside : SameBytesOutside 0xF00 256 s (s.drawn x y n) :=
  fun a ha => (toggles_drawing s x y n).outside a (by omega)

/-- A draw leaves every register but `VF` alone. -/
theorem State.drawn_getV_of_ne {r : Reg} (h : r ≠ 15) : (s.drawn x y n).getV r = s.getV r := by
  rw [State.drawn, State.getV_setVF, if_neg h]; rfl

/-- After a draw `VF` is the collision flag. -/
theorem State.drawn_vf : (s.drawn x y n).getV 15 = flagByte (s.drawing x y n).2 :=
  State.getV_setVF ..

/-- After a draw `VF` is 1 exactly when a set sprite bit met a lit frame pixel (R164). -/
theorem State.drawn_vf_eq_one_iff : (s.drawn x y n).getV 15 = 0x01#8 ↔
    ∃ px py, px < 64 ∧ py < 32 ∧ s.mem.pixel px py = true ∧ s.metBit x y n px py = true := by
  have hflag : ∀ f : Bool, flagByte f = 0x01#8 ↔ f = true := by decide
  rw [State.drawn_vf, hflag, (toggles_drawing s x y n).collision]
  simp [and_comm]

/-- After a draw `VF` is 0 or 1. -/
theorem State.drawn_vf_zero_or_one : (s.drawn x y n).getV 15 = 0x00#8 ∨ (s.drawn x y n).getV 15 = 0x01#8 := by
  have hflag : ∀ f : Bool, flagByte f = 0x00#8 ∨ flagByte f = 0x01#8 := by decide
  rw [State.drawn_vf]
  exact hflag _

end OneDraw

/-- Settles O38: the parts of it are the lemmas about one draw. -/
theorem drawTogglesPixelsAndReportsCollision : Obligations.DrawTogglesPixelsAndReportsCollision := by
  intro s x y n hin
  exact ⟨_, exec_drw_inBounds x y hin, fun px py hx hy => s.drawn_pixel x y n hx hy, s.drawn_vf_eq_one_iff x y n,
    s.drawn_vf_zero_or_one x y n, fun r hr => s.drawn_getV_of_ne x y n hr, s.drawn_sameBytesOutside x y n,
    s.drawn_eq x y n⟩

/-! ## A draw off the frame -/

/-- A sprite row right of the frame or below it plots nothing (R162). -/
theorem plotRow_offFrame {vx py : Nat} (h : 64 ≤ vx ∨ 32 ≤ py) (row : Byte) (c : Memory × Bool) :
    plotRow row vx py c = c := by
  unfold plotRow
  split
  case isTrue hpy =>
    have hcol : ∀ col, plotColumn row vx py c col = c := fun col =>
      if_neg fun hin => by simp only [Config.screenW, Config.screenH] at hin hpy; omega
    exact List.foldl_fixed' hcol _
  case isFalse => rfl

/-- A sprite whose corner lies right of the frame or below it plots nothing (R162). -/
theorem plotRows_offFrame {vx py : Nat} (h : 64 ≤ vx ∨ 32 ≤ py) (rows : List Byte) (c : Memory × Bool) :
    plotRows vx py rows c = c := by
  induction rows generalizing py with
  | nil => rfl
  | cons row rows ih =>
    rw [plotRows, plotRow_offFrame h]
    exact ih (h.imp_right Nat.le_succ_of_le)

/-- A draw off the frame, or of no rows, changes no byte and meets no pixel (R162, R166). -/
theorem State.drawing_nothing {s : State} {x y : Reg} {n : Nibble}
    (h : 64 ≤ (s.getV x).toNat ∨ 32 ≤ (s.getV y).toNat ∨ n.toNat = 0) : s.drawing x y n = (s.mem, false) := by
  unfold State.drawing
  rcases or_assoc.2 h with hoff | hn
  · exact plotRows_offFrame hoff _ _
  · have hnone : s.sprite n = [] := List.length_eq_zero_iff.1 ((Memory.readBytes_length ..).trans hn)
    rw [hnone]; rfl

/-- Settles O40: the drawing is the old memory without a collision, so the draw only clears `VF`. -/
theorem drawOffTheFrameDrawsNothing : Obligations.DrawOffTheFrameDrawsNothing := by
  intro s x y n hin hoff
  have hdrawn : s.drawn x y n = s.setVF false := by rw [State.drawn, State.drawing_nothing hoff]
  refine ⟨_, exec_drw_inBounds x y hin, by rw [hdrawn]; simp [flagByte], fun r hr => ?_, fun a => ?_, ?_⟩
  · exact s.drawn_getV_of_ne x y n (by simpa using hr)
  · rw [hdrawn, State.setVF_mem]
  · rw [hdrawn]; rfl

/-! ## Two draws -/

/-- A draw leaves a sprite below video memory as it was. -/
theorem State.drawn_sprite {s : State} (x y : Reg) {n : Nibble} (h : n.toNat = 0 ∨ s.i.toNat + n.toNat ≤ 0xF00) :
    (s.drawn x y n).sprite n = s.sprite n := by
  refine List.map_congr_left fun k hk => ?_
  have hk : k < n.toNat := List.mem_range.1 hk
  exact s.drawn_sameBytesOutside x y n (s.i.toNat + k) (.inl (by omega))

/-- The second of two equal draws meets the frame with the bits of the first, unless the first changed the sprite or its corner. -/
theorem State.drawn_metBit {s : State} {x y : Reg} {n : Nibble} (h : n.toNat = 0 ∨ s.i.toNat + n.toNat ≤ 0xF00)
    (hx : x ≠ 15) (hy : y ≠ 15) : (s.drawn x y n).metBit x y n = s.metBit x y n := by
  funext px py
  rw [State.metBit, State.drawn_sprite x y h, State.drawn_getV_of_ne s x y n hx, State.drawn_getV_of_ne s x y n hy,
    State.metBit]

/-- Settles O39: both draws toggle by the same bits, which cancel in every frame pixel; the second meets a lit pixel with a set bit
where the pixel was dark before the first. -/
theorem drawingTwiceRestoresVideoMemory : Obligations.DrawingTwiceRestoresVideoMemory := by
  intro s t x y n hsprite hx hy hfirst
  have hin : s.spriteInBounds n := hsprite.imp_right fun h => by simp only [Config.memLast]; omega
  obtain rfl : s.drawn x y n = t := Host.Outcome.next.inj ((exec_drw_inBounds x y hin).symm.trans hfirst)
  have hmet := State.drawn_metBit hsprite hx hy
  refine ⟨_, exec_drw_inBounds x y hin, ?bytes, fun r hr => ?regs, rfl, ?flag⟩
  case bytes =>
    refine Memory.read_eq_of_pixels (fun px py hpx hpy => ?_) fun a ha => ?_
    · rw [State.drawn_pixel _ x y n hpx hpy, hmet, State.drawn_pixel s x y n hpx hpy, Bool.xor_assoc, Bool.xor_self,
        Bool.xor_false]
    · have hout : a < 0xF00 ∨ 0xF00 + 256 ≤ a := by omega
      rw [State.drawn_sameBytesOutside _ x y n a hout, State.drawn_sameBytesOutside s x y n a hout]
  case regs => rw [State.drawn_getV_of_ne _ x y n hr, State.drawn_getV_of_ne s x y n hr]
  case flag =>
    have hlit : ∀ px py, px < 64 → py < 32 → s.metBit x y n px py = true →
        ((s.drawn x y n).mem.pixel px py = true ↔ s.mem.pixel px py = false) := fun px py hpx hpy hbit => by
      rw [State.drawn_pixel s x y n hpx hpy, hbit, Bool.xor_true, Bool.not_eq_true']
    rw [State.drawn_vf_eq_one_iff, hmet]
    refine exists_congr fun px => exists_congr fun py => and_congr_right fun hpx => and_congr_right fun hpy => ?_
    exact and_congr_left fun hbit => hlit px py hpx hpy hbit

end Sys2Proof.Machine
end

section
/-! Decoding and encoding (spec/30_encoding.md): every decoded instruction is well-formed and stands for its word, and the word of
every well-formed instruction decodes to it. The statements about words follow from these two. -/
namespace Sys2Proof

/-- `ins` is well-formed and `w` is its word. -/
def Instr.StandsFor (ins : Instr) (w : Word) : Prop := ins.wellFormed = true ∧ encode ins = w

/-! ## The sub-opcodes of a word -/

theorem subNibble_fieldNNN (w : Word) : subNibble (fieldNNN w) = (fieldN w).toNat := by
  rw [subNibble, fieldNNN_toNat, fieldN_toNat]; omega

theorem subByte_fieldNNN (w : Word) : subByte (fieldNNN w) = (fieldKK w).toNat := by
  rw [subByte, fieldNNN_toNat, fieldKK_toNat]; omega

/-! ## A format filled with the fields of a word is that word -/

theorem formatA_of_fields {w : Word} {t : Nibble} (ht : (fieldT w).toNat = t.toNat) : formatA t (fieldNNN w) = w := by
  rw [← BitVec.eq_of_toNat_eq ht]; exact formatA_fields w

theorem formatXK_of_fields {w : Word} {t : Nibble} {kk : Byte} (ht : (fieldT w).toNat = t.toNat)
    (hk : (fieldKK w).toNat = kk.toNat) : formatXK t (fieldX w) kk = w := by
  rw [← BitVec.eq_of_toNat_eq ht, ← BitVec.eq_of_toNat_eq hk]; exact formatXK_fields w

theorem formatXYN_of_fields {w : Word} {t n : Nibble} (ht : (fieldT w).toNat = t.toNat)
    (hn : (fieldN w).toNat = n.toNat) : formatXYN t (fieldX w) (fieldY w) n = w := by
  rw [← BitVec.eq_of_toNat_eq ht, ← BitVec.eq_of_toNat_eq hn]; exact formatXYN_fields w

theorem formatA_eq_iff {t : Nibble} {nnn nnn' : Lit12} : formatA t nnn = formatA t nnn' ↔ nnn = nnn' :=
  ⟨fun e => by simpa using congrArg fieldNNN e, congrArg (formatA t)⟩

theorem formatA_eq_cls_iff {nnn : Lit12} : formatA 0x0#4 nnn = 0x00E0#16 ↔ nnn = 0x0E0#12 :=
  formatA_eq_iff (nnn' := 0x0E0#12)

theorem formatA_eq_ret_iff {nnn : Lit12} : formatA 0x0#4 nnn = 0x00EE#16 ↔ nnn = 0x0EE#12 :=
  formatA_eq_iff (nnn' := 0x0EE#12)

/-! ## From words to instructions -/

section FromWords
variable {w : Word}

theorem decodeFamily0_standsFor (ht : (fieldT w).toNat = 0x0) : (decodeFamily0 w).StandsFor w := by
  unfold decodeFamily0
  split
  case isTrue h => exact ⟨rfl, h.symm⟩
  case isFalse hcls =>
    split
    case isTrue h => exact ⟨rfl, h.symm⟩
    case isFalse hret =>
      have hw : formatA 0x0#4 (fieldNNN w) = w := formatA_of_fields ht
      have hne : ∀ nnn, formatA 0x0#4 nnn ≠ w → fieldNNN w ≠ nnn := fun nnn h e => h (e ▸ hw)
      have hwf : fieldNNN w ≠ 0x0E0#12 ∧ fieldNNN w ≠ 0x0EE#12 := ⟨hne _ (Ne.symm hcls), hne _ (Ne.symm hret)⟩
      exact ⟨by simpa [Instr.wellFormed] using hwf, hw⟩

theorem decodeFamily5_standsFor (ht : (fieldT w).toNat = 0x5) : (decodeFamily5 w).StandsFor w := by
  unfold decodeFamily5
  split
  case isTrue h => exact ⟨rfl, formatXYN_of_fields ht (congrArg BitVec.toNat h)⟩
  case isFalse h =>
    have hsub : (fieldN w).toNat ≠ 0 := fun e => h (BitVec.eq_of_toNat_eq e)
    exact ⟨by simpa [Instr.wellFormed, subNibble_fieldNNN] using hsub, formatA_of_fields ht⟩

theorem decodeFamily8_standsFor (ht : (fieldT w).toNat = 0x8) : (decodeFamily8 w).StandsFor w := by
  unfold decodeFamily8
  split
  case h_10 =>
    have hsub : 7 < (fieldN w).toNat ∧ (fieldN w).toNat ≠ 0xE := by simp only [imp_false] at *; omega
    exact ⟨by simpa [Instr.wellFormed, subNibble_fieldNNN] using hsub, formatA_of_fields ht⟩
  all_goals next hn => exact ⟨rfl, formatXYN_of_fields ht hn⟩

theorem decodeFamily9_standsFor (ht : (fieldT w).toNat = 0x9) : (decodeFamily9 w).StandsFor w := by
  unfold decodeFamily9
  split
  case isTrue h => exact ⟨rfl, formatXYN_of_fields ht (congrArg BitVec.toNat h)⟩
  case isFalse h =>
    have hsub : (fieldN w).toNat ≠ 0 := fun e => h (BitVec.eq_of_toNat_eq e)
    exact ⟨by simpa [Instr.wellFormed, subNibble_fieldNNN] using hsub, formatA_of_fields ht⟩

theorem decodeFamilyE_standsFor (ht : (fieldT w).toNat = 0xE) : (decodeFamilyE w).StandsFor w := by
  unfold decodeFamilyE
  split
  case h_3 =>
    have hsub : (fieldKK w).toNat ≠ 0x9E ∧ (fieldKK w).toNat ≠ 0xA1 := by simp only [imp_false] at *; omega
    exact ⟨by simpa [Instr.wellFormed, subByte_fieldNNN] using hsub, formatA_of_fields ht⟩
  all_goals next hk => exact ⟨rfl, formatXK_of_fields ht hk⟩

theorem decodeFamilyF_standsFor (ht : (fieldT w).toNat = 0xF) : (decodeFamilyF w).StandsFor w := by
  unfold decodeFamilyF
  split
  case h_10 =>
    have hsub : (fieldKK w).toNat ∉ familyFSubs := by
      simp only [imp_false] at *
      simp [familyFSubs, *]
    exact ⟨by simpa [Instr.wellFormed, subByte_fieldNNN] using hsub, formatA_of_fields ht⟩
  all_goals next hk => exact ⟨rfl, formatXK_of_fields ht hk⟩

/-- Decoding is total, and what a word decodes to stands for it (R65, R69). -/
theorem decodeWord_total (w : Word) : ∃ ins, decodeWord w = .ok ins ∧ ins.StandsFor w := by
  unfold decodeWord
  split
  case h_1 ht => exact ⟨_, rfl, decodeFamily0_standsFor ht⟩
  case h_6 ht => exact ⟨_, rfl, decodeFamily5_standsFor ht⟩
  case h_9 ht => exact ⟨_, rfl, decodeFamily8_standsFor ht⟩
  case h_10 ht => exact ⟨_, rfl, decodeFamily9_standsFor ht⟩
  case h_14 ht => exact ⟨_, rfl, rfl, formatXYN_of_fields ht rfl⟩
  case h_15 ht => exact ⟨_, rfl, decodeFamilyE_standsFor ht⟩
  case h_16 ht => exact ⟨_, rfl, decodeFamilyF_standsFor ht⟩
  case h_17 => simp only [imp_false] at *; omega
  case h_2 ht | h_3 ht | h_11 ht | h_12 ht => exact ⟨_, rfl, rfl, formatA_of_fields ht⟩
  case h_4 ht | h_5 ht | h_7 ht | h_8 ht | h_13 ht => exact ⟨_, rfl, rfl, formatXK_of_fields ht rfl⟩

end FromWords

/-! ## From instructions to words -/

section ToWords
variable {low : Lit12}

theorem decodeFamily0_formatA (hcls : low ≠ 0x0E0#12) (hret : low ≠ 0x0EE#12) :
    decodeFamily0 (formatA 0x0#4 low) = .sys low := by
  rw [decodeFamily0, if_neg (mt formatA_eq_cls_iff.1 hcls), if_neg (mt formatA_eq_ret_iff.1 hret), fieldNNN_formatA]

theorem decodeFamily5_formatA (h : subNibble low ≠ 0) : decodeFamily5 (formatA 0x5#4 low) = .reserved5 low := by
  have hn : fieldN (formatA 0x5#4 low) ≠ 0#4 := fun e => h (by rw [← fieldN_formatA 0x5#4, e]; rfl)
  rw [decodeFamily5, if_neg hn, fieldNNN_formatA]

theorem decodeFamily8_formatA (h : 7 < subNibble low ∧ subNibble low ≠ 0xE) :
    decodeFamily8 (formatA 0x8#4 low) = .reserved8 low := by
  unfold decodeFamily8
  split
  case h_10 => rw [fieldNNN_formatA]
  all_goals next hn => rw [fieldN_formatA] at hn; omega

theorem decodeFamily9_formatA (h : subNibble low ≠ 0) : decodeFamily9 (formatA 0x9#4 low) = .reserved9 low := by
  have hn : fieldN (formatA 0x9#4 low) ≠ 0#4 := fun e => h (by rw [← fieldN_formatA 0x9#4, e]; rfl)
  rw [decodeFamily9, if_neg hn, fieldNNN_formatA]

theorem decodeFamilyE_formatA (h : subByte low ≠ 0x9E ∧ subByte low ≠ 0xA1) :
    decodeFamilyE (formatA 0xE#4 low) = .reservedE low := by
  unfold decodeFamilyE
  split
  case h_3 => rw [fieldNNN_formatA]
  all_goals next hk => rw [fieldKK_formatA] at hk; omega

theorem decodeFamilyF_formatA (h : subByte low ∉ familyFSubs) : decodeFamilyF (formatA 0xF#4 low) = .reservedF low := by
  unfold decodeFamilyF
  split
  case h_10 => rw [fieldNNN_formatA]
  all_goals next hk => rw [fieldKK_formatA] at hk; exact absurd hk (by rintro hk; simp [hk, familyFSubs] at h)

end ToWords

/-- Settles O2: a fallback row's operand is kept away from the words of the earlier rows by well-formedness; every other row's
family and sub-opcode select it at once. -/
theorem encodedInstructionDecodesToItself : Obligations.EncodedInstructionDecodesToItself := by
  intro ins hwf
  cases ins
  case cls | ret => rfl
  case sys nnn =>
    have h : nnn ≠ 0x0E0#12 ∧ nnn ≠ 0x0EE#12 := by simpa [Instr.wellFormed] using hwf
    simp [encode, decodeWord, decodeFamily0_formatA h.1 h.2]
  case reserved5 low => simp [encode, decodeWord, decodeFamily5_formatA (by simpa [Instr.wellFormed] using hwf)]
  case reserved8 low => simp [encode, decodeWord, decodeFamily8_formatA (by simpa [Instr.wellFormed] using hwf)]
  case reserved9 low => simp [encode, decodeWord, decodeFamily9_formatA (by simpa [Instr.wellFormed] using hwf)]
  case reservedE low => simp [encode, decodeWord, decodeFamilyE_formatA (by simpa [Instr.wellFormed] using hwf)]
  case reservedF low => simp [encode, decodeWord, decodeFamilyF_formatA (by simpa [Instr.wellFormed] using hwf)]
  case seReg x y => simp [encode, decodeWord, decodeFamily5]
  case sneReg x y => simp [encode, decodeWord, decodeFamily9]
  case skp x | sknp x => simp [encode, decodeWord, decodeFamilyE]
  case ldReg x y | orReg x y | andReg x y | xorReg x y | addReg x y | subReg x y | shr x y | subnReg x y | shl x y =>
    simp [encode, decodeWord, decodeFamily8]
  case ldVxDt x | ldVxK x | ldDtVx x | ldStVx x | addI x | ldF x | ldB x | storeRegs x | loadRegs x =>
    simp [encode, decodeWord, decodeFamilyF]
  all_goals simp [encode, decodeWord]

/-- Settles O3. -/
theorem everyWordIsSomeInstructionsWord : Obligations.EveryWordIsSomeInstructionsWord := decodeWord_total

/-- Decoding and encoding are inverse: a word decodes to the well-formed instruction whose word it is (R65, R74). -/
theorem decodeWord_eq_ok_iff (w : Word) (ins : Instr) : decodeWord w = .ok ins ↔ ins.StandsFor w := by
  constructor
  · intro h
    obtain ⟨ins', hdec, hstands⟩ := decodeWord_total w
    obtain rfl : ins' = ins := Except.ok.inj (hdec.symm.trans h)
    exact hstands
  · rintro ⟨hwf, rfl⟩
    exact encodedInstructionDecodesToItself ins hwf

/-- A word decodes to the reserved row `mk` of family `t` exactly when its family is `t` and its low 12 bits are well-formed as
the operand of that row (R67). -/
theorem decodes_to_reserved_iff {w : Word} {ins : Instr} {mk : Lit12 → Instr} {t : Nibble}
    (hmk : ∀ low, encode (mk low) = formatA t low) (hdec : decodeWord w = .ok ins) :
    (∃ low, ins = mk low) ↔ fieldT w = t ∧ (mk (fieldNNN w)).wellFormed = true := by
  constructor
  · rintro ⟨low, rfl⟩
    obtain ⟨hwf, rfl⟩ := (decodeWord_eq_ok_iff w _).1 hdec
    rw [hmk, fieldT_formatA, fieldNNN_formatA]
    exact ⟨rfl, hwf⟩
  · rintro ⟨rfl, hwf⟩
    have hstands : (mk (fieldNNN w)).StandsFor w := ⟨hwf, (hmk _).trans (formatA_fields w)⟩
    exact ⟨_, Except.ok.inj (hdec.symm.trans ((decodeWord_eq_ok_iff w _).2 hstands))⟩

/-- Settles O4: well-formedness of a reserved row is the condition of the table on the sub-opcode. -/
theorem unrecognizedWordsAreThoseOfTheTable : Obligations.UnrecognizedWordsAreThoseOfTheTable := by
  intro w ins hdec
  have hzero : fieldN w ≠ 0#4 ↔ (fieldN w).toNat ≠ 0 := not_congr BitVec.toNat_inj.symm
  have hnibble : (fieldN w).toNat < 16 := (fieldN w).isLt
  refine ⟨?_, ?_, ?_, ?_, ?_⟩
  · rw [decodes_to_reserved_iff (mk := .reserved5) (fun _ => rfl) hdec, hzero]
    simp [Instr.wellFormed, subNibble_fieldNNN]
  · rw [decodes_to_reserved_iff (mk := .reserved8) (fun _ => rfl) hdec]
    refine and_congr_right fun _ => ?_
    simp only [Instr.wellFormed, subNibble_fieldNNN, Bool.and_eq_true, decide_eq_true_eq, bne_iff_ne, List.mem_cons,
      List.not_mem_nil, or_false]
    omega
  · rw [decodes_to_reserved_iff (mk := .reserved9) (fun _ => rfl) hdec, hzero]
    simp [Instr.wellFormed, subNibble_fieldNNN]
  · rw [decodes_to_reserved_iff (mk := .reservedE) (fun _ => rfl) hdec]
    simp [Instr.wellFormed, subByte_fieldNNN]
  · rw [decodes_to_reserved_iff (mk := .reservedF) (fun _ => rfl) hdec]
    simp [Instr.wellFormed, subByte_fieldNNN, familyFSubs]

/-- Settles O5: the three instructions of family 0 by the word each stands for. -/
theorem clearAndReturnAreWholeWords : Obligations.ClearAndReturnAreWholeWords := by
  intro w
  simp only [decodeWord_eq_ok_iff]
  refine ⟨⟨fun h => h.2.symm, fun h => ⟨rfl, h.symm⟩⟩, ⟨fun h => h.2.symm, fun h => ⟨rfl, h.symm⟩⟩,
    fun nnn => ?_⟩
  constructor
  · rintro ⟨hwf, rfl⟩
    have h : nnn ≠ 0x0E0#12 ∧ nnn ≠ 0x0EE#12 := by simpa [Instr.wellFormed] using hwf
    exact ⟨rfl, mt formatA_eq_cls_iff.1 h.1, mt formatA_eq_ret_iff.1 h.2⟩
  · rintro ⟨rfl, h⟩
    exact ⟨by simpa [Instr.wellFormed, formatA_eq_cls_iff, formatA_eq_ret_iff] using h, rfl⟩

/-- The bytes of a well-formed instruction decode to it, and the bytes after them are left over (R60, R74). -/
theorem decodeBytes_encodeBytes_append {ins : Instr} (hwf : ins.wellFormed = true) (rest : List Byte) :
    decodeBytes (encodeBytes ins ++ rest) = .ok (ins, rest) := by
  have hdec : decodeWord (encode ins) = .ok ins := encodedInstructionDecodesToItself ins hwf
  simp [encodeBytes, bytesOfWord, decodeBytes, Machine.wordOfBytes_bytes, hdec, Except.map]

/-- Settles O1: each of the sequences is the bytes of its instruction with the rest after them. -/
theorem writtenOutWordsDecode : Obligations.WrittenOutWordsDecode :=
  ⟨decodeBytes_encodeBytes_append (ins := .drw 1 2 5#4) rfl [],
    decodeBytes_encodeBytes_append (ins := .ldImm 3 0x9C#8) rfl [0x22#8, 0xF0#8],
    decodeBytes_encodeBytes_append (ins := .call 0x2F0#12) rfl [], decodeBytes_encodeBytes_append (ins := .cls) rfl [],
    decodeBytes_encodeBytes_append (ins := .sys 0x1E0#12) rfl [],
    decodeBytes_encodeBytes_append (ins := .subnReg 1 2) rfl [], decodeBytes_encodeBytes_append (ins := .ldF 4) rfl [],
    decodeBytes_encodeBytes_append (ins := .sknp 5) rfl [],
    decodeBytes_encodeBytes_append (ins := .reserved5 0x123#12) rfl [], rfl⟩

end Sys2Proof
end

section
/-! The host's operations (spec/40_step_and_cycle.md, spec/70_reset_and_hazards.md): what each one makes of the state, one equation
per case, and the statements about a machine step that begins one. -/
namespace Sys2Proof.Machine

/-- An answer has one next state. -/
theorem next_unique {r : Result} {s t : State} (hs : r = .next s) (ht : r = .next t) : s = t :=
  Host.Outcome.next.inj (hs.symm.trans ht)

/-! ## The three conditions -/

theorem State.condition_running_iff (s : State) : s.condition = .running ↔ s.fault = false ∧ s.wait = false := by
  unfold State.condition
  cases s.fault <;> cases s.wait <;> simp

theorem State.condition_suspended_iff (s : State) : s.condition = .suspended ↔ s.fault = false ∧ s.wait = true := by
  unfold State.condition
  cases s.fault <;> cases s.wait <;> simp

/-- An engine that is not running is halted or suspended (R208). -/
theorem State.condition_not_running_iff (s : State) : s.condition ≠ .running ↔ s.fault = true ∨ s.wait = true := by
  rw [Ne, State.condition_running_iff, not_and_or, Bool.not_eq_false, Bool.not_eq_false]

/-! ## One operation of the host -/

/-- With no cycle left the step takes the next operation off the queue and applies it (R81). -/
theorem step_hostOp {s t : State} {op : HostOp} {rest : List HostOp} (hidle : s.cyclesLeft = 0)
    (hop : s.hostOps = op :: rest) (happly : State.applyHostOp { s with hostOps := rest } op = t) : step s = .next t := by
  rw [step_host hidle, State.hostTurn, hop, ← happly]

theorem State.beginStep_notRunning {s : State} (n : Nat) (h : s.fault = true ∨ s.wait = true) : s.beginStep n = s :=
  if_pos h

theorem State.beginStep_zero {s : State} (h : ¬(s.fault = true ∨ s.wait = true)) : s.beginStep 0 = s.tick := by
  rw [State.beginStep, if_neg h, if_pos rfl]

theorem State.beginStep_pos {s : State} {n : Nat} (h : ¬(s.fault = true ∨ s.wait = true)) (hn : n ≠ 0) :
    s.beginStep n = { s with cyclesLeft := n } := by
  rw [State.beginStep, if_neg h, if_neg hn]

theorem State.deliver_suspended {s : State} (k : Nibble) (hf : s.fault = false) (hw : s.wait = true) :
    s.deliver k = { s.setV s.waitReg (k.setWidth 8) with wait := false } := by
  simp [State.deliver, hf, hw]

theorem State.deliver_notSuspended {s : State} (k : Nibble) (h : s.condition ≠ .suspended) : s.deliver k = s := by
  rw [Ne, State.condition_suspended_iff] at h
  unfold State.deliver
  split
  case isTrue => rfl
  case isFalse hf => exact if_neg fun hw => h ⟨Bool.eq_false_iff.2 hf, hw⟩

theorem State.loadProgram_empty (s : State) {bytes : List Byte} (h : bytes.length = 0) :
    s.loadProgram bytes = s.emit (.loadReturned .emptyProgramError) :=
  if_pos h

theorem State.loadProgram_tooLarge (s : State) {bytes : List Byte} (h : 3232 < bytes.length) :
    s.loadProgram bytes = s.emit (.loadReturned .programTooLargeError) := by
  rw [State.loadProgram, if_neg (by omega), if_pos h]

theorem State.loadProgram_ok (s : State) {bytes : List Byte} (hpos : 0 < bytes.length) (hmax : bytes.length ≤ 3232) :
    s.loadProgram bytes =
      State.emit { s.resetEngine with mem := s.resetEngine.mem.writeBytes 0x200 bytes } (.loadReturned .ok) := by
  rw [State.loadProgram, if_neg (by omega), if_neg (by show ¬3232 < _; omega)]

/-- The three lengths a program can have (R90, R198). -/
theorem programLength_cases (bytes : List Byte) :
    bytes.length = 0 ∨ 3232 < bytes.length ∨ (0 < bytes.length ∧ bytes.length ≤ 3232) := by omega

/-! ## The statements about a step that begins an operation -/

/-- Settles O6. -/
theorem resetLeavesTheSpecValues : Obligations.ResetLeavesTheSpecValues := by
  have hregs : ∀ r, State.reset.getV r = 0x00#8 := by decide
  have habove : ∀ a, 0x050 ≤ a → State.reset.mem.read a = 0x00#8 := resetByte_of_le
  exact ⟨hregs, rfl, rfl, rfl, rfl, rfl, rfl, rfl, by decide, by decide, by decide, by decide, habove⟩

/-- Settles O10. -/
theorem tickCountsBothTimersDown : Obligations.TickCountsBothTimersDown := by
  have hdown : ∀ b : Byte, (countDown b).toNat = b.toNat - 1 := fun b => by
    unfold countDown
    split
    case isTrue h => rw [h]; rfl
    case isFalse h => bv_omega
  exact fun s => ⟨hdown s.dt, hdown s.st, rfl⟩

/-- Settles O11. -/
theorem nothingChangesWithoutTheHost : Obligations.NothingChangesWithoutTheHost := by
  intro s hidle hops
  rw [step_host hidle, State.hostTurn, hops]

/-- Settles O12: the three cases of the beginning of `step(n)`. -/
theorem stepOperationBegins : Obligations.StepOperationBegins := by
  intro s n rest hidle hop
  have hrunning : s.condition = .running → ¬(s.fault = true ∨ s.wait = true) := fun h =>
    mt s.condition_not_running_iff.2 (not_not.2 h)
  refine ⟨fun hc => ?_, fun hc hn => ?_, fun hc hn => ?_⟩
  · exact step_hostOp hidle hop (State.beginStep_notRunning n (s.condition_not_running_iff.1 hc))
  · subst hn
    exact step_hostOp hidle hop (State.beginStep_zero (hrunning hc))
  · exact step_hostOp hidle hop (State.beginStep_pos (hrunning hc) hn)

/-- Settles O14. -/
theorem deliverKeyResolvesThePendingWait : Obligations.DeliverKeyResolvesThePendingWait := by
  intro s k rest hidle hop
  refine ⟨fun hc => ?_, fun hc => ?_⟩
  · obtain ⟨hf, hw⟩ := s.condition_suspended_iff.1 hc
    refine ⟨_, step_hostOp hidle hop (State.deliver_suspended k hf hw), ?_, fun r hr => ?_, rfl⟩
    · have hreg : (s.setV s.waitReg (k.setWidth 8)).getV s.waitReg = k.setWidth 8 := by simp
      exact (congrArg BitVec.toNat hreg).trans (BitVec.toNat_setWidth_of_le (by decide))
    · exact (State.getV_setV s s.waitReg r _).trans (if_neg hr)
  · exact step_hostOp hidle hop (State.deliver_notSuspended k hc)

/-- Settles O15. -/
theorem loadErrorsChangeNothing : Obligations.LoadErrorsChangeNothing := by
  intro s bytes rest hidle hop
  exact ⟨fun h => step_hostOp hidle hop (State.loadProgram_empty _ h),
    fun h => step_hostOp hidle hop (State.loadProgram_tooLarge _ h)⟩

/-- Settles O16: the program is the run of bytes written at `0x200` over the memory of the reset state. -/
theorem loadResetsAndCopiesTheProgram : Obligations.LoadResetsAndCopiesTheProgram := by
  intro s bytes rest hidle hop hpos hmax
  refine ⟨_, step_hostOp hidle hop (State.loadProgram_ok _ hpos hmax), fun k hk => ?_, fun a ha => ?_, rfl⟩
  · exact Memory.read_writeBytes_inside State.reset.mem 0x200 bytes k hk
  · exact Memory.read_writeBytes_outside State.reset.mem 0x200 bytes a ha

/-- Settles O17. -/
theorem resetOperationResetsTheEngine : Obligations.ResetOperationResetsTheEngine := fun _ _ hidle hop =>
  step_hostOp hidle hop rfl

/-- What an operation of the host leaves of a halted engine: all but the events, unless it is `reset` or a load that succeeds
(R193, R198, R202). -/
theorem State.applyHostOp_halted {s : State} (hf : s.fault = true) (op : HostOp) :
    s.applyHostOp op = { s with events := (s.applyHostOp op).events } ∨ op = .reset ∨
      ∃ bytes : List Byte, op = .load bytes ∧ 0 < bytes.length ∧ bytes.length ≤ 3232 := by
  cases op with
  | reset => exact .inr (.inl rfl)
  | load bytes =>
    rcases programLength_cases bytes with h | h | h
    · exact .inl (by rw [State.applyHostOp, State.loadProgram_empty s h]; rfl)
    · exact .inl (by rw [State.applyHostOp, State.loadProgram_tooLarge s h]; rfl)
    · exact .inr (.inr ⟨bytes, rfl, h⟩)
  | step n => exact .inl (by rw [State.applyHostOp, State.beginStep_notRunning n (.inl hf)])
  | deliverKey k =>
    have hc : s.condition ≠ .suspended := by simp [State.condition_suspended_iff, hf]
    exact .inl (by rw [State.applyHostOp, State.deliver_notSuspended k hc])

/-- Settles O18: a halted engine runs no cycle, so its step drops what cycles are left or begins an operation of the host. -/
theorem haltedEngineKeepsItsState : Obligations.HaltedEngineKeepsItsState := by
  intro s t hf hst
  rcases step_cases s with ⟨hidle, -⟩ | ⟨-, -, hdrop⟩ | ⟨⟨hrun, -⟩, -⟩
  case inl =>
    cases hops : s.hostOps with
    | nil =>
      obtain rfl := next_unique (nothingChangesWithoutTheHost s hidle hops) hst
      exact .inl rfl
    | cons op rest =>
      obtain rfl := next_unique (step_hostOp hidle hops rfl) hst
      rcases State.applyHostOp_halted (s := { s with hostOps := rest }) hf op with hsame | rfl | ⟨bytes, rfl, hlen⟩
      · rw [hsame]; exact .inl rfl
      · exact .inr ⟨hidle, rest, .inl rfl⟩
      · exact .inr ⟨hidle, rest, .inr ⟨bytes, rfl, hlen⟩⟩
  case inr.inl =>
    obtain rfl := next_unique hdrop hst
    exact .inl rfl
  case inr.inr => simp [hf] at hrun

end Sys2Proof.Machine
end

section
/-! The machine's steps (spec/40_step_and_cycle.md): one cycle and what follows it, and the steps of a `step(n)` together. -/
namespace Sys2Proof.Machine

/-! ## One cycle -/

/-- A fetch in range runs the instruction that the bytes at PC decode to, on the advanced state (R82, R83). -/
theorem cycle_decoded {s : State} {ins : Instr} (hpc : s.pc.toNat ≤ 0xFFE)
    (hdec : decodeWord (s.mem.readWord s.pc.toNat) = .ok ins) : s.cycle = exec ins s.advance := by
  rw [State.cycle, State.fetch_ok s hpc]
  simp only [hdec]

/-- A running engine's step is its cycle and what follows a cycle. -/
theorem step_of_cycle {s t u : State} (hrun : s.Running) (hcycle : s.cycle = .next t) (hafter : t.afterCycle = u) :
    step s = .next u := by
  rw [step_running hrun, State.cycleTurn, hcycle, ← hafter]

theorem State.afterCycle_fault {s : State} (h : s.fault = true) : s.afterCycle = { s with cyclesLeft := 0 } :=
  if_pos h

theorem State.afterCycle_wait {s : State} (hf : s.fault = false) (hw : s.wait = true) :
    s.afterCycle = State.tick { s with cyclesLeft := 0 } := by
  simp [State.afterCycle, hf, hw]

theorem State.afterCycle_last {s : State} (hf : s.fault = false) (hn : s.cyclesLeft ≤ 1) :
    s.afterCycle = State.tick { s with cyclesLeft := 0 } := by
  simp [State.afterCycle, hf, hn]

theorem State.afterCycle_more {s : State} (hf : s.fault = false) (hw : s.wait = false) (hn : 1 < s.cyclesLeft) :
    s.afterCycle = { s with cyclesLeft := s.cyclesLeft - 1 } := by
  simp [State.afterCycle, hf, hw, hn]

/-- Settles O7. -/
theorem stepRunsTheDecodedInstruction : Obligations.StepRunsTheDecodedInstruction := by
  intro s t ins hrun hpc hdec hexec
  exact step_of_cycle hrun ((cycle_decoded hpc hdec).trans hexec) rfl

/-- Settles O8. -/
theorem fetchAboveMemoryLatchesFetchBounds : Obligations.FetchAboveMemoryLatchesFetchBounds := by
  intro s hrun hpc
  have hcycle : s.cycle = .next (s.latch (.fetchBounds (s.pc.toNat + 1)) s.pc 0x0000#16) := by
    rw [State.cycle, State.fetch_error s hpc]
  exact step_of_cycle hrun hcycle (State.afterCycle_fault rfl)

/-- Settles O9. -/
theorem storeIsSeenByTheNextFetch : Obligations.StoreIsSeenByTheNextFetch := by
  intro s hi lo hpc
  have hword : (s.mem.writeBytes s.pc.toNat [hi, lo]).readWord s.pc.toNat = hi ++ lo := by
    simp [Memory.readWord, Memory.writeBytes, wordOfBytes]
  rw [← hword]
  exact State.fetch_ok { s with mem := s.mem.writeBytes s.pc.toNat [hi, lo] } hpc

/-- Settles O47: an instruction's answer is a next state, and so is each of the three things a step can be. -/
theorem everyInstructionAndStepCompletes : Obligations.EveryInstructionAndStepCompletes := by
  refine ⟨fun ins s => ?_, fun s => ?_⟩
  · obtain ⟨t, ht, -⟩ := exec_effect ins s
    exact ⟨t, ht⟩
  · rcases step_cases s with ⟨-, hturn⟩ | ⟨-, -, hdrop⟩ | ⟨hrun, -⟩
    · exact ⟨_, hturn⟩
    · exact ⟨_, hdrop⟩
    · obtain ⟨t, ht, -⟩ := cycle_effect s
      exact ⟨_, step_of_cycle hrun ht rfl⟩

/-! ## The cycles of a `step(n)` -/

theorem State.withCyclesLeft_zero {s : State} (h : s.cyclesLeft = 0) : { s with cyclesLeft := 0 } = s := by
  rw [← h]

/-- One round of the loop of R80. -/
theorem runCycles_succ {s t : State} (n : Nat) (h : s.cycle = .next t) :
    runCycles (n + 1) s =
      if t.fault = true then .next t else if t.wait = true then .next t.tick else runCycles n t := by
  rw [runCycles, h]

/-- With `n + 1` cycles left, a step of a running engine either ends the loop of R80 or makes one round of it. -/
theorem step_round {s : State} (n : Nat) (hf : s.fault = false) (hw : s.wait = false) (hidle : s.cyclesLeft = 0) :
    (∃ t, step { s with cyclesLeft := n + 1 } = .next t ∧ runCycles (n + 1) s = .next t) ∨
    (∃ t, n ≠ 0 ∧ t.fault = false ∧ t.wait = false ∧ t.cyclesLeft = 0 ∧
      step { s with cyclesLeft := n + 1 } = .next { t with cyclesLeft := n } ∧
      runCycles (n + 1) s = runCycles n t) := by
  obtain ⟨t, hcycle, heffect⟩ := cycle_effect s
  have hleft : t.cyclesLeft = 0 := heffect.cyclesLeft.trans hidle
  have hsame : { t with cyclesLeft := 0 } = t := State.withCyclesLeft_zero hleft
  have htick : State.tick { t with cyclesLeft := 0 } = t.tick := congrArg State.tick hsame
  have hstep {u : State} : State.afterCycle { t with cyclesLeft := n + 1 } = u →
      step { s with cyclesLeft := n + 1 } = .next u :=
    step_of_cycle ⟨hf, hw, n.succ_ne_zero⟩ (cycle_withCyclesLeft s t (n + 1) hcycle)
  rw [runCycles_succ n hcycle]
  cases hft : t.fault
  case true => exact .inl ⟨_, hstep (State.afterCycle_fault hft), congrArg Host.Outcome.next hsame.symm⟩
  case false =>
    cases hwt : t.wait
    case true =>
      exact .inl ⟨_, hstep (State.afterCycle_wait hft hwt), congrArg Host.Outcome.next htick.symm⟩
    case false =>
      by_cases hn : n = 0
      · subst hn
        exact .inl ⟨_, hstep (State.afterCycle_last hft (le_refl 1)),
          congrArg Host.Outcome.next htick.symm⟩
      · have hmore : 1 < n + 1 := by omega
        exact .inr ⟨t, hn, hft, hwt, hleft, hstep (State.afterCycle_more hft hwt hmore), rfl⟩

theorem core_run_one {s t : State} (h : step s = .next t) : Sys2Proof.core.run 1 s = .next t :=
  core_run_succ 0 h

/-- The machine's steps while `n + 1` cycles are left are together the loop of R80. -/
theorem run_cyclesLeft (n : Nat) (s : State) (hf : s.fault = false) (hw : s.wait = false) (hidle : s.cyclesLeft = 0) :
    ∃ k, k ≤ n + 1 ∧ Sys2Proof.core.run k { s with cyclesLeft := n + 1 } = runCycles (n + 1) s := by
  induction n generalizing s with
  | zero =>
    rcases step_round 0 hf hw hidle with ⟨t, hstep, hloop⟩ | ⟨-, hne, -⟩
    · exact ⟨1, le_refl 1, (core_run_one hstep).trans hloop.symm⟩
    · exact absurd rfl hne
  | succ n ih =>
    rcases step_round (n + 1) hf hw hidle with ⟨t, hstep, hloop⟩ | ⟨t, -, hft, hwt, hleft, hstep, hloop⟩
    · exact ⟨1, by omega, (core_run_one hstep).trans hloop.symm⟩
    · obtain ⟨k, hk, hrun⟩ := ih t hft hwt hleft
      exact ⟨k + 1, by omega, (core_run_succ k hstep).trans (hrun.trans hloop.symm)⟩

/-- Settles O13: the first step begins the operation; with cycles to run, the steps after it are the loop. -/
theorem machineStepsRunTheLoopOfStepN : Obligations.MachineStepsRunTheLoopOfStepN := by
  intro s n rest hidle hop
  unfold stepN
  split
  case isTrue hf =>
    have hstep := step_hostOp hidle hop (State.beginStep_notRunning n (.inl hf))
    exact ⟨1, le_refl 1, by omega, core_run_one hstep⟩
  case isFalse hf =>
    split
    case isTrue hw =>
      have hstep := step_hostOp hidle hop (State.beginStep_notRunning n (.inr hw))
      exact ⟨1, le_refl 1, by omega, core_run_one hstep⟩
    case isFalse hw =>
      have hrunning : ¬(s.fault = true ∨ s.wait = true) := not_or.2 ⟨hf, hw⟩
      cases n with
      | zero =>
        have hstep := step_hostOp hidle hop (State.beginStep_zero hrunning)
        exact ⟨1, le_refl 1, le_refl 1, core_run_one hstep⟩
      | succ n =>
        have hstep := step_hostOp hidle hop (State.beginStep_pos hrunning n.succ_ne_zero)
        obtain ⟨k, hk, hrun⟩ := run_cyclesLeft n { s with hostOps := rest } (Bool.eq_false_iff.2 hf)
          (Bool.eq_false_iff.2 hw) hidle
        exact ⟨k + 1, by omega, by omega, (core_run_succ k hstep).trans hrun⟩

/-! ## A wait for a key -/

/-- On an engine that is not running every `step(n)` is used up by one machine step and nothing else changes (R80). -/
theorem run_steps_notRunning (ns : List Nat) (rest : List HostOp) (s : State) (h : s.fault = true ∨ s.wait = true)
    (hidle : s.cyclesLeft = 0) (hops : s.hostOps = ns.map HostOp.step ++ rest) :
    Sys2Proof.core.run ns.length s = .next { s with hostOps := rest } := by
  induction ns generalizing s with
  | nil =>
    obtain rfl : s.hostOps = rest := hops
    rfl
  | cons n ns ih =>
    have hstep := step_hostOp hidle hops (State.beginStep_notRunning n h)
    exact (core_run_succ ns.length hstep).trans (ih _ h hidle rfl)

/-- A run followed by one step. -/
theorem core_run_then_step (k : Nat) (s : State) {t u : State} (hrun : Sys2Proof.core.run k s = .next t)
    (hstep : step t = .next u) : Sys2Proof.core.run (k + 1) s = .next u := by
  induction k generalizing s with
  | zero =>
    obtain rfl : s = t := Host.Outcome.next.inj hrun
    exact core_run_one hstep
  | succ k ih =>
    obtain ⟨v, hv⟩ := everyInstructionAndStepCompletes.2 s
    rw [core_run_succ k hv] at hrun
    exact (core_run_succ (k + 1) hv).trans (ih v hrun)

/-- The state in which a running engine waits once it has fetched `Fx0A`: the step ends with one tick (R85, R176). -/
def State.awaitingKey (s : State) (x : Reg) : State :=
  { s with pc := s.pc + 2#16, wait := true, waitReg := x, dt := countDown s.dt, st := countDown s.st, cyclesLeft := 0 }

theorem step_ldVxK {s : State} {x : Reg} (hrun : s.Running) (hpc : s.pc.toNat ≤ 0xFFE)
    (hdec : decodeWord (s.mem.readWord s.pc.toNat) = .ok (.ldVxK x)) : step s = .next (s.awaitingKey x) :=
  step_of_cycle hrun (cycle_decoded hpc hdec) (State.afterCycle_wait hrun.1 rfl)

/-- Settles O44: after the step of `Fx0A` the queue of `step(n)` is used up, and the delivery finds the wait. -/
theorem waitForKeySuspendsUntilDelivery : Obligations.WaitForKeySuspendsUntilDelivery := by
  intro s x hrun hpc hdec
  have hidle (ns : List Nat) (rest : List HostOp) (hops : s.hostOps = ns.map HostOp.step ++ rest) :
      Sys2Proof.core.run ns.length (s.awaitingKey x) = .next { s.awaitingKey x with hostOps := rest } :=
    run_steps_notRunning ns rest _ (.inr rfl) rfl hops
  refine ⟨s.awaitingKey x, step_ldVxK hrun hpc hdec, rfl, hidle, fun ns k rest hops => ?_⟩
  have hsuspended : State.condition { s.awaitingKey x with hostOps := .deliverKey k :: rest } = .suspended :=
    (State.condition_suspended_iff _).2 ⟨hrun.1, rfl⟩
  obtain ⟨u, hu, hkey, hregs, hframe⟩ := (deliverKeyResolvesThePendingWait _ k rest rfl rfl).1 hsuspended
  exact ⟨u, core_run_then_step _ _ (hidle ns _ hops) hu, hkey, hregs, hframe⟩

end Sys2Proof.Machine
end

section
/-! The invariant of spec/10_state.md R30: every launch state has it, every step keeps it, so every reachable state has it. -/
namespace Sys2Proof.Machine

/-- The clauses of the invariant that are about the engine itself; the one left out bounds the model's own step
counter (log 15). -/
structure State.Sound (s : State) : Prop where
  wf : s.mem.wf
  sp : s.sp.toNat ≤ 48
  clearCause : s.fault = false → s.faultCause = 0#3
  setCause : s.fault = true → 1 ≤ s.faultCause.toNat ∧ s.faultCause.toNat ≤ 5
  apart : ¬(s.wait = true ∧ s.fault = true)

theorem State.inv_iff (s : State) :
    s.Inv ↔ s.Sound ∧ (s.cyclesLeft ≠ 0 → s.fault = false ∧ s.wait = false) :=
  ⟨fun ⟨hwf, hsp, hclear, hset, hapart, hleft⟩ => ⟨⟨hwf, hsp, hclear, hset, hapart⟩, hleft⟩,
    fun ⟨h, hleft⟩ => ⟨h.wf, h.sp, h.clearCause, h.setCause, h.apart, hleft⟩⟩

/-- Between steps the engine's clauses are the whole invariant. -/
theorem State.Sound.inv_of_idle {s : State} (h : s.Sound) (hidle : s.cyclesLeft = 0) : s.Inv :=
  s.inv_iff.2 ⟨h, fun hne => absurd hidle hne⟩

/-- The clauses read five parts of the state; one with its memory in canonical form and the other four as before has them too. -/
theorem State.Sound.of_same {s t : State} (h : s.Sound) (hwf : t.mem.wf) (hsp : t.sp = s.sp) (hwait : t.wait = s.wait)
    (hfault : t.fault = s.fault) (hcause : t.faultCause = s.faultCause) : t.Sound :=
  ⟨hwf, hsp ▸ h.sp, by rw [hfault, hcause]; exact h.clearCause, by rw [hfault, hcause]; exact h.setCause,
    by rw [hwait, hfault]; exact h.apart⟩

/-- Between steps, a state with its memory in canonical form and the four other parts that the clauses read as before. -/
theorem State.Sound.inv_of_same {s t : State} (h : s.Sound) (hidle : t.cyclesLeft = 0) (hwf : t.mem.wf) (hsp : t.sp = s.sp)
    (hwait : t.wait = s.wait) (hfault : t.fault = s.fault) (hcause : t.faultCause = s.faultCause) : t.Inv :=
  (h.of_same hwf hsp hwait hfault hcause).inv_of_idle hidle

theorem State.sound_reset : State.reset.Sound :=
  ⟨Memory.wf_nil, by decide, fun _ => rfl, fun h => by simp [State.reset] at h, by simp [State.reset]⟩

/-! ## A cycle keeps it -/

/-- The effect of a cycle on a running engine keeps the engine's clauses: a fault is latched with its cause, and never with a
wait. -/
theorem State.Sound.of_effect {s t : State} (h : s.Sound) (hf : s.fault = false) (hw : s.wait = false) (he : Effect s t) :
    t.Sound := by
  rcases he.latch with ⟨hfault, hcause⟩ | ⟨hfault, hrange, hwait⟩
  · have hclear : t.fault = false := hfault.trans hf
    have hzero : t.faultCause = 0#3 := hcause.trans (h.clearCause hf)
    exact ⟨he.wf h.wf h.sp, he.sp h.sp, fun _ => hzero, by simp [hclear], by simp [hclear]⟩
  · exact ⟨he.wf h.wf h.sp, he.sp h.sp, by simp [hfault], fun _ => hrange, by simp [hwait, hw]⟩

/-- What follows a cycle leaves no cycle to a suspended or halted engine. -/
theorem State.Sound.inv_afterCycle {s : State} (h : s.Sound) : s.afterCycle.Inv := by
  cases hf : s.fault
  case true =>
    rw [State.afterCycle_fault hf]
    exact h.inv_of_same rfl h.wf rfl rfl rfl rfl
  case false =>
    cases hw : s.wait
    case true =>
      rw [State.afterCycle_wait hf hw]
      exact h.inv_of_same rfl h.wf rfl rfl rfl rfl
    case false =>
      by_cases hn : s.cyclesLeft ≤ 1
      · rw [State.afterCycle_last hf hn]
        exact h.inv_of_same rfl h.wf rfl rfl rfl rfl
      · rw [State.afterCycle_more hf hw (by omega)]
        exact (State.inv_iff _).2 ⟨h.of_same h.wf rfl rfl rfl rfl, fun _ => ⟨hf, hw⟩⟩

/-! ## The host's operations keep it -/

section HostOps
variable {s : State}

theorem State.inv_resetEngine : s.resetEngine.Inv :=
  State.sound_reset.inv_of_same rfl Memory.wf_nil rfl rfl rfl rfl

/-- A program that `load` accepts ends below `0xEA0`, so its bytes lie in memory. -/
theorem State.inv_loadProgram (h : s.Sound) (hidle : s.cyclesLeft = 0) (bytes : List Byte) : (s.loadProgram bytes).Inv := by
  rcases programLength_cases bytes with hlen | hlen | ⟨hpos, hmax⟩
  · rw [State.loadProgram_empty s hlen]
    exact h.inv_of_same hidle h.wf rfl rfl rfl rfl
  · rw [State.loadProgram_tooLarge s hlen]
    exact h.inv_of_same hidle h.wf rfl rfl rfl rfl
  · rw [State.loadProgram_ok s hpos hmax]
    have hbytes : 0x200 + bytes.length ≤ Config.memLast + 1 := by simp only [Config.memLast]; omega
    exact State.sound_reset.inv_of_same rfl (Memory.wf_writeBytes [] 0x200 bytes Memory.wf_nil hbytes) rfl rfl rfl rfl

theorem State.inv_beginStep (h : s.Sound) (hidle : s.cyclesLeft = 0) (n : Nat) : (s.beginStep n).Inv := by
  by_cases hrun : s.fault = true ∨ s.wait = true
  · rw [State.beginStep_notRunning n hrun]
    exact h.inv_of_idle hidle
  · by_cases hn : n = 0
    · subst hn
      rw [State.beginStep_zero hrun]
      exact h.inv_of_same hidle h.wf rfl rfl rfl rfl
    · rw [State.beginStep_pos hrun hn]
      exact (State.inv_iff _).2 ⟨h.of_same h.wf rfl rfl rfl rfl, fun _ => by simpa using hrun⟩

theorem State.inv_deliver (h : s.Sound) (hidle : s.cyclesLeft = 0) (k : Nibble) : (s.deliver k).Inv := by
  by_cases hc : s.condition = .suspended
  · obtain ⟨hf, hw⟩ := s.condition_suspended_iff.1 hc
    rw [State.deliver_suspended k hf hw]
    have hsound : State.Sound { s.setV s.waitReg (k.setWidth 8) with wait := false } :=
      ⟨h.wf, h.sp, h.clearCause, h.setCause, by simp⟩
    exact hsound.inv_of_idle hidle
  · rw [State.deliver_notSuspended k hc]
    exact h.inv_of_idle hidle

theorem State.inv_applyHostOp (h : s.Sound) (hidle : s.cyclesLeft = 0) (op : HostOp) : (s.applyHostOp op).Inv := by
  cases op with
  | reset => exact State.inv_resetEngine
  | load bytes => exact State.inv_loadProgram h hidle bytes
  | step n => exact State.inv_beginStep h hidle n
  | deliverKey k => exact State.inv_deliver h hidle k

theorem State.inv_hostTurn (h : s.Sound) (hidle : s.cyclesLeft = 0) : s.hostTurn.Inv := by
  unfold State.hostTurn
  split
  · exact h.inv_of_idle hidle
  · next op rest _ =>
    have hrest : State.Sound { s with hostOps := rest } := h.of_same h.wf rfl rfl rfl rfl
    exact State.inv_applyHostOp hrest hidle op

end HostOps

/-! ## The statements -/

/-- Settles O54: a launch state is the reset state in all that the invariant reads. -/
theorem launchStatesHoldTheInvariant : Obligations.LaunchStatesHoldTheInvariant := by
  intro ops keys draws
  exact State.sound_reset.inv_of_same rfl Memory.wf_nil rfl rfl rfl rfl

/-- Settles O55: the three things a step can be. -/
theorem everyStepKeepsTheInvariant : Obligations.EveryStepKeepsTheInvariant := by
  intro s t hinv hst
  obtain ⟨hsound, -⟩ := s.inv_iff.1 hinv
  rcases step_cases s with ⟨hidle, hturn⟩ | ⟨-, -, hdrop⟩ | ⟨hrun, -⟩
  · rw [← next_unique hturn hst]
    exact State.inv_hostTurn hsound hidle
  · rw [← next_unique hdrop hst]
    exact hsound.inv_of_same rfl hsound.wf rfl rfl rfl rfl
  · obtain ⟨u, hcycle, heffect⟩ := cycle_effect s
    rw [← next_unique (step_of_cycle hrun hcycle rfl) hst]
    exact (hsound.of_effect hrun.1 hrun.2.1 heffect).inv_afterCycle

/-- Every reachable state has the whole invariant. -/
theorem Reachable.inv {s : State} (h : Reachable s) : s.Inv := by
  induction h with
  | launched ops keys draws => exact launchStatesHoldTheInvariant ops keys draws
  | stepped _ hstep ih => exact everyStepKeepsTheInvariant _ _ ih hstep

/-- Settles O56. -/
theorem reachableStatesHoldTheInvariant : Obligations.ReachableStatesHoldTheInvariant := by
  intro s hreach
  obtain ⟨hwf, hsp, hclear, hset, hapart, -⟩ := hreach.inv
  exact ⟨hsp, hwf, hclear, hset, hapart⟩

end Sys2Proof.Machine
end

section
/-! Memory as a list, and the instructions that move bytes between registers and memory (spec/20_memory.md,
spec/43_index_memory.md). -/
namespace Sys2Proof.Machine

/-! ## The canonical form has one list for each content -/

/-- A cell of a canonical memory is the byte that its address reads. -/
theorem Memory.read_of_mem {m : Memory} (hwf : m.wf) {c : Host.Cell} (hc : c ∈ m) : m.read c.1 = c.2 := by
  induction m with
  | nil => simp at hc
  | cons d m ih =>
    obtain ⟨hsort, hcells⟩ := hwf
    obtain ⟨hlt, hsort⟩ := List.pairwise_cons.1 hsort
    rcases List.mem_cons.1 hc with rfl | hc
    · exact if_pos rfl
    · rw [Memory.read_cons, if_neg (hlt c hc).ne]
      exact ih ⟨hsort, fun e he => hcells e (List.mem_cons_of_mem d he)⟩ hc

/-- An address that does not read its reset content has a cell. -/
theorem Memory.mem_of_read_ne {m : Memory} {a : Nat} (h : m.read a ≠ resetByte a) : (a, m.read a) ∈ m := by
  induction m with
  | nil => exact absurd rfl h
  | cons d m ih =>
    obtain ⟨k, v⟩ := d
    by_cases hd : k = a
    · simp [hd]
    · rw [Memory.read_cons, if_neg hd] at h ⊢
      exact List.mem_cons_of_mem _ (ih h)

/-- The cells of a canonical memory are the addresses in range that do not read their reset content, with what they read. -/
theorem Memory.mem_iff {m : Memory} (hwf : m.wf) (c : Host.Cell) :
    c ∈ m ↔ c.1 ≤ 0xFFF ∧ m.read c.1 = c.2 ∧ c.2 ≠ resetByte c.1 := by
  constructor
  · intro hc
    exact ⟨(hwf.2 c hc).1, Memory.read_of_mem hwf hc, (hwf.2 c hc).2⟩
  · rintro ⟨-, hread, hne⟩
    have hmem : (c.1, m.read c.1) ∈ m := Memory.mem_of_read_ne (by rwa [hread])
    rwa [hread] at hmem

/-- Settles O53: both lists are sorted by address and have the same cells. -/
theorem equalBytesMakeEqualMemories : Obligations.EqualBytesMakeEqualMemories := by
  intro m m' hwf hwf' hread
  have : Std.Irrefl fun c d : Host.Cell => c.1 < d.1 := ⟨fun _ => Nat.lt_irrefl _⟩
  have : Std.Antisymm fun c d : Host.Cell => c.1 < d.1 := ⟨fun _ _ h h' => absurd h h'.asymm⟩
  refine hwf.1.eq_of_mem_iff hwf'.1 fun c => ?_
  rw [Memory.mem_iff hwf, Memory.mem_iff hwf']
  exact and_congr_right fun hc => by rw [hread c.1 hc]

/-! ## Decimal digits, block store and block load -/

/-- `Fx33` in bounds (R143). -/
theorem exec_ldB_inBounds {s : State} (x : Reg) (h : s.i.toNat + 2 ≤ 0xFFF) :
    exec (.ldB x) s = .next { s with mem := s.mem.writeBytes s.i.toNat (bcdDigits (s.getV x)) } :=
  congrArg Host.Outcome.next (State.withinData_in s _ 3 _ (.inr h))

/-- `Fx55` in bounds (R144). -/
theorem exec_storeRegs_inBounds {s : State} {x : Reg} (h : s.i.toNat + x.val ≤ 0xFFF) :
    exec (.storeRegs x) s = .next { s with mem := s.mem.writeBytes s.i.toNat (s.regsUpTo x) } :=
  congrArg Host.Outcome.next (State.withinData_in s _ (x.val + 1) _ (.inr h))

/-- `Fx65` in bounds (R145). -/
theorem exec_loadRegs_inBounds {s : State} {x : Reg} (h : s.i.toNat + x.val ≤ 0xFFF) :
    exec (.loadRegs x) s = .next (s.loadUpTo x s.i.toNat) :=
  congrArg Host.Outcome.next (State.withinData_in s _ (x.val + 1) _ (.inr h))

/-- Three bytes written are the three bytes read back. -/
theorem Memory.read_writeBytes_three (m : Memory) (a : Nat) (b₀ b₁ b₂ : Byte) :
    (m.writeBytes a [b₀, b₁, b₂]).read a = b₀ ∧ (m.writeBytes a [b₀, b₁, b₂]).read (a + 1) = b₁ ∧
    (m.writeBytes a [b₀, b₁, b₂]).read (a + 2) = b₂ := by
  simp [Memory.read_writeBytes]

/-- Settles O32: each digit is below 256, so its byte holds it. -/
theorem bcdStoresTheDecimalDigits : Obligations.BcdStoresTheDecimalDigits := by
  intro s x hin
  have hlt : (s.getV x).toNat < 256 := (s.getV x).isLt
  have hdigit (d : Nat) (hd : d < 256) : (BitVec.ofNat 8 d).toNat = d := Nat.mod_eq_of_lt hd
  obtain ⟨hhundreds, htens, hunits⟩ := Memory.read_writeBytes_three s.mem s.i.toNat
    (BitVec.ofNat 8 ((s.getV x).toNat / 100)) (BitVec.ofNat 8 ((s.getV x).toNat / 10 % 10))
    (BitVec.ofNat 8 ((s.getV x).toNat % 10))
  refine ⟨_, exec_ldB_inBounds x hin, ?_, ?_, ?_, ?_, fun a ha => ?_, rfl⟩
  · exact (congrArg BitVec.toNat hhundreds).trans (hdigit _ (by omega))
  · exact (congrArg BitVec.toNat htens).trans (hdigit _ (by omega))
  · exact (congrArg BitVec.toNat hunits).trans (hdigit _ (by omega))
  · simp only [bcdDigits, hhundreds, htens, hunits]
    rw [hdigit _ (by omega), hdigit _ (by omega), hdigit _ (by omega)]; omega
  · exact Memory.read_writeBytes_outside s.mem _ _ a ha

/-- Settles O33. -/
theorem blockStoreWritesTheRegisters : Obligations.BlockStoreWritesTheRegisters := by
  intro s x hin
  refine ⟨_, exec_storeRegs_inBounds hin, fun r hr => ?_, fun a ha => ?_, rfl⟩
  · have hbyte : (s.regsUpTo x)[r.val]? = some (s.getV r) := s.regsUpTo_getElem? x r hr
    simp [Memory.read_writeBytes, hbyte]
  · exact Memory.read_writeBytes_outside s.mem _ _ a (by rwa [State.regsUpTo_length])

/-- Settles O34. -/
theorem blockLoadReadsTheRegisters : Obligations.BlockLoadReadsTheRegisters := by
  intro s x hin
  have hregs (r : Reg) := s.getV_loadUpTo x s.i.toNat r
  exact ⟨_, exec_loadRegs_inBounds hin, fun r hr => (hregs r).trans (if_pos hr),
    fun r hr => (hregs r).trans (if_neg (Fin.not_le.2 hr)), fun _ => rfl, rfl⟩

/-- Settles O35: the load reads at the same `I` the bytes that the store has written. -/
theorem blockStoreThenLoadRestores : Obligations.BlockStoreThenLoadRestores := by
  intro s t x between hin hstore
  obtain ⟨t', ht', hbytes, -, hframe⟩ := blockStoreWritesTheRegisters s x hin
  obtain rfl : t' = t := next_unique ht' hstore
  have hi : t'.i = s.i := by rw [hframe]
  obtain ⟨u, hu, hregs, -⟩ := blockLoadReadsTheRegisters { t' with v := between } x (by rw [hi]; exact hin)
  refine ⟨u, hu, fun r hr => ?_⟩
  calc u.getV r = t'.mem.read (t'.i.toNat + r.val) := hregs r hr
    _ = t'.mem.read (s.i.toNat + r.val) := by rw [hi]
    _ = s.getV r := hbytes r hr

/-! ## The address register -/

@[simp] theorem zext8_toNat (b : Byte) : (zext8 b).toNat = b.toNat :=
  BitVec.toNat_setWidth_of_le (by decide)

/-- Settles O31: nothing overflows in `5 * V[x]`, which is at most 1275. -/
theorem addToIndexAndGlyphAddressResults : Obligations.AddToIndexAndGlyphAddressResults := by
  intro s x
  have hsum : (s.i + zext8 (s.getV x)).toNat = (s.i.toNat + (s.getV x).toNat) % 65536 := by
    rw [BitVec.toNat_add, zext8_toNat]
  have hglyph : (glyphAddr (s.getV x)).toNat = 5 * (s.getV x).toNat := by
    have hb : (s.getV x).toNat < 256 := (s.getV x).isLt
    rw [glyphAddr, BitVec.toNat_mul, zext8_toNat, BitVec.toNat_ofNat]; omega
  exact ⟨⟨_, rfl, hsum, fun _ => rfl, rfl⟩, ⟨_, rfl, hglyph, fun _ => rfl, rfl⟩⟩

end Sys2Proof.Machine
end

section
/-! Results and frames of the instructions that write registers, PC, the stack or a timer (spec/41_flow.md, spec/42_alu.md,
spec/45_keys_timers.md), and the `video` output. -/
namespace Sys2Proof.Machine

/-! ## Register instructions -/

theorem getV_setV_same (s : State) (x : Reg) (b : Byte) : (s.setV x b).getV x = b :=
  (State.getV_setV s x x b).trans (if_pos rfl)

/-- A register write changes no other register and nothing else. -/
theorem onlyV_setV (s : State) (x : Reg) (b : Byte) : OnlyV [x] s (s.setV x b) := by
  refine ⟨fun r hr => ?_, fun _ => rfl, rfl⟩
  have hne : r ≠ x := by simpa using hr
  exact (State.getV_setV s x r b).trans (if_neg hne)

/-- Settles O19. -/
theorem loadAddImmediateAndLogicResults : Obligations.LoadAddImmediateAndLogicResults := by
  intro s x y kk
  have hsum : (s.getV x + kk).toNat = ((s.getV x).toNat + kk.toNat) % 256 := BitVec.toNat_add ..
  have hwrite (b : Byte) : (s.setV x b).getV x = b ∧ OnlyV [x] s (s.setV x b) := ⟨getV_setV_same s x b, onlyV_setV s x b⟩
  exact ⟨⟨_, rfl, hwrite _⟩, ⟨_, rfl, by rw [(hwrite _).1, hsum], (hwrite _).2⟩, ⟨_, rfl, hwrite _⟩,
    ⟨_, rfl, hwrite _⟩, ⟨_, rfl, hwrite _⟩, ⟨_, rfl, hwrite _⟩⟩

/-- What a flag-writing instruction leaves: the result in `V[x]` unless the flag overwrites it, the flag in `VF`, and every
other part of the state (R121). -/
theorem setResultThenFlag_spec (s : State) (x : Reg) (r : Byte) (f : Bool) :
    (x ≠ 15 → (s.setResultThenFlag x r f).getV x = r) ∧
    ((s.setResultThenFlag x r f).getV 15).toNat = (if f = true then 1 else 0) ∧
    OnlyV [x, 15] s (s.setResultThenFlag x r f) := by
  refine ⟨fun hx => by simp [hx], by simp, fun q hq => ?_, fun _ => rfl, State.setResultThenFlag_eq s x r f⟩
  have hne : q ≠ x ∧ q ≠ 15 := by simpa using hq
  simp [hne]

/-- Settles O20. -/
theorem addAndSubtractResultsAndFlags : Obligations.AddAndSubtractResultsAndFlags := by
  intro s x y
  have hsub (a b : Byte) : (a - b).toNat = (a.toNat + 256 - b.toNat) % 256 := by bv_omega
  refine ⟨⟨_, rfl, ?_⟩, ⟨_, rfl, ?_⟩, ⟨_, rfl, ?_⟩⟩
  · obtain ⟨hresult, hflag, honly⟩ := setResultThenFlag_spec s x (s.getV x + s.getV y) (carryOut (s.getV x) (s.getV y))
    exact ⟨fun hx => by rw [hresult hx, BitVec.toNat_add], hflag.trans (by simp [carryOut]), honly⟩
  · obtain ⟨hresult, hflag, honly⟩ := setResultThenFlag_spec s x (s.getV x - s.getV y) (noBorrow (s.getV x) (s.getV y))
    exact ⟨fun hx => by rw [hresult hx, hsub], hflag.trans (by simp [noBorrow]), honly⟩
  · obtain ⟨hresult, hflag, honly⟩ := setResultThenFlag_spec s x (s.getV y - s.getV x) (noBorrow (s.getV y) (s.getV x))
    exact ⟨fun hx => by rw [hresult hx, hsub], hflag.trans (by simp [noBorrow]), honly⟩

/-- The bits that a shift by one drops, as numbers. -/
theorem shiftedOut_toNat (b : Byte) : (if shiftedOutRight b = true then 1 else 0) = b.toNat % 2 ∧
    (if shiftedOutLeft b = true then 1 else 0) = b.toNat / 128 := by
  have hb : b.toNat < 256 := b.isLt
  simp only [shiftedOutRight, shiftedOutLeft, BitVec.getLsbD, Nat.testBit_eq_decide_div_mod_eq, decide_eq_true_eq]
  constructor
  · split <;> omega
  · split <;> omega

/-- Settles O21. -/
theorem shiftResultsAndFlags : Obligations.ShiftResultsAndFlags := by
  intro s x y
  obtain ⟨hlow, hhigh⟩ := shiftedOut_toNat (s.getV x)
  refine ⟨⟨_, rfl, ?_⟩, ⟨_, rfl, ?_⟩, fun z => ⟨rfl, rfl⟩⟩
  · obtain ⟨hresult, hflag, honly⟩ := setResultThenFlag_spec s x (s.getV x >>> 1) (shiftedOutRight (s.getV x))
    exact ⟨fun hx => by rw [hresult hx, BitVec.toNat_ushiftRight, Nat.shiftRight_one], hflag.trans hlow, honly⟩
  · obtain ⟨hresult, hflag, honly⟩ := setResultThenFlag_spec s x (s.getV x <<< 1) (shiftedOutLeft (s.getV x))
    exact ⟨fun hx => by rw [hresult hx, BitVec.toNat_shiftLeft, Nat.shiftLeft_eq, pow_one], hflag.trans hhigh, honly⟩

/-- A byte masked with `kk` has no bit outside `kk`. -/
theorem and_mask_outside (b kk : Byte) : b &&& kk &&& ~~~kk = 0x00#8 := by
  simp [BitVec.and_assoc]

/-- Settles O22: the draw is supplied or free, and the write to `V[x]` is the same for both. -/
theorem randomResultIsOneMaskedDraw : Obligations.RandomResultIsOneMaskedDraw := by
  intro s x kk
  have hread := getV_setV_same s.takeRnd x (s.rndByte &&& kk)
  refine ⟨_, rfl, fun b rest h => ?_, fun h => ?_, ?_, fun r hr => ?_, fun a => ?_, ?_⟩
  · obtain ⟨hbyte, htake⟩ := s.draw_supplied b rest h
    exact ⟨by rw [hread, hbyte], by simp [htake], by simp [htake]⟩
  · obtain ⟨hbyte, htake⟩ := s.draw_free h
    exact ⟨by rw [hread, hbyte], by simp [htake, h], by simp [htake]⟩
  · rw [hread, and_mask_outside]
  · rw [State.getV_setV, if_neg hr, State.getV, State.takeRnd_v, State.getV]
  · rw [State.setV_mem, State.takeRnd_mem]
  · rw [State.takeRnd_eq]; rfl

/-! ## Control transfer -/

/-- Settles O23: the sum is below 65536, so nothing is lost. -/
theorem jumpResults : Obligations.JumpResults := by
  intro s nnn
  have hsum : (zext12 nnn + zext8 (s.getV 0)).toNat = nnn.toNat + (s.getV 0).toNat := by
    have hnnn : nnn.toNat < 4096 := nnn.isLt
    have hv0 : (s.getV 0).toNat < 256 := (s.getV 0).isLt
    rw [BitVec.toNat_add, zext12_toNat, zext8_toNat]; omega
  exact ⟨⟨_, rfl, zext12_toNat nnn, fun _ => rfl, rfl⟩, ⟨_, rfl, hsum, fun _ => rfl, rfl⟩⟩

/-- Settles O24. -/
theorem nativeCallSlotIsAJump : Obligations.NativeCallSlotIsAJump := by
  intro s nnn
  have hword : zext12 nnn = formatA 0x0#4 nnn := BitVec.eq_of_toNat_eq (by rw [zext12_toNat, formatA_toNat]; simp)
  exact ⟨_, rfl, hword, fun _ => rfl, rfl⟩

/-- A skip changes PC alone. -/
theorem onlyPc_skipIf (s : State) (c : Bool) : OnlyPc s (s.skipIf c) :=
  ⟨fun a => by rw [State.skipIf_mem], by rw [State.skipIf_eq]⟩

/-- Settles O25. -/
theorem conditionalSkipResults : Obligations.ConditionalSkipResults := by
  intro s x y kk
  have hequal (b c : Byte) : (s.skipIf (b == c)).pc = if b = c then s.pc + 2#16 else s.pc := by simp
  have hdiffer (b c : Byte) : (s.skipIf (b != c)).pc = if b = c then s.pc else s.pc + 2#16 := by
    by_cases h : b = c <;> simp [h]
  exact ⟨⟨_, rfl, hequal .., onlyPc_skipIf ..⟩, ⟨_, rfl, hdiffer .., onlyPc_skipIf ..⟩,
    ⟨_, rfl, hequal .., onlyPc_skipIf ..⟩, ⟨_, rfl, hdiffer .., onlyPc_skipIf ..⟩⟩

/-! ## The stack -/

/-- `2NNN` on a full stack (R103). -/
theorem exec_call_full {s : State} (nnn : Lit12) (h : s.sp = 48#6) :
    exec (.call nnn) s = .next (s.raise .stackOverflow (.call nnn)) :=
  congrArg Host.Outcome.next (if_pos h)

/-- `2NNN` with room on the stack (R103). -/
theorem exec_call_room {s : State} (nnn : Lit12) (h : s.sp ≠ 48#6) :
    exec (.call nnn) s =
      .next { s with mem := s.mem.writeWord (slotAddr s.sp) s.pc, sp := s.sp + 1#6, pc := zext12 nnn } :=
  congrArg Host.Outcome.next (if_neg h)

/-- `00EE` on an empty stack (R100). -/
theorem exec_ret_empty {s : State} (h : s.sp = 0#6) : exec .ret s = .next (s.raise .stackUnderflow .ret) :=
  congrArg Host.Outcome.next (if_pos h)

/-- `00EE` with an address stacked (R100). -/
theorem exec_ret_stacked {s : State} (h : s.sp ≠ 0#6) :
    exec .ret s = .next { s with sp := s.sp - 1#6, pc := s.mem.readWord (slotAddr (s.sp - 1#6)) } :=
  congrArg Host.Outcome.next (if_neg h)

theorem ne_full_of_lt {k : BitVec 6} (h : k.toNat < 48) : k ≠ 48#6 := by
  rintro rfl; exact absurd h (by decide)

theorem ne_empty_of_pos {k : BitVec 6} (h : 0 < k.toNat) : k ≠ 0#6 := by
  rintro rfl; exact absurd h (by decide)

/-- A word in memory as a number: high byte first (R42). -/
theorem Memory.readWord_toNat (m : Memory) (a : Nat) :
    (m.readWord a).toNat = (m.read a).toNat * 256 + (m.read (a + 1)).toNat :=
  append_toNat (m.read a) (m.read (a + 1))

/-- The two bytes of a word written, as numbers (R42). -/
theorem Memory.read_writeWord_toNat (m : Memory) (a : Nat) (w : Word) :
    ((m.writeWord a w).read a).toNat = w.toNat / 256 ∧ ((m.writeWord a w).read (a + 1)).toNat = w.toNat % 256 := by
  have hw : w.toNat < 65536 := w.isLt
  simp [Memory.writeWord, bytesOfWord, Memory.writeBytes, Nat.shiftRight_eq_div_pow]
  omega

/-- Settles O26. -/
theorem callPushesTheReturnAddress : Obligations.CallPushesTheReturnAddress := by
  intro s nnn hsp
  obtain ⟨hhigh, hlow⟩ := s.mem.read_writeWord_toNat (slotAddr s.sp) s.pc
  have hinc : (s.sp + 1#6).toNat = s.sp.toNat + 1 := by bv_omega
  exact ⟨_, exec_call_room nnn (ne_full_of_lt hsp), zext12_toNat nnn, hinc, hhigh, hlow, rfl,
    fun a ha => s.mem.read_writeWord_outside _ _ a ha, rfl⟩

/-- Settles O27. -/
theorem returnPopsTheReturnAddress : Obligations.ReturnPopsTheReturnAddress := by
  intro s hsp
  have hdec : (s.sp - 1#6).toNat = s.sp.toNat - 1 := by bv_omega
  have hslot : slotAddr (s.sp - 1#6) = 0xEA0 + 2 * (s.sp.toNat - 1) := by rw [slotAddr, hdec]
  refine ⟨_, exec_ret_stacked (ne_empty_of_pos hsp), hdec, ?_, fun _ => rfl, rfl⟩
  rw [← hslot]
  exact s.mem.readWord_toNat _

/-- Settles O28. -/
theorem stackFaultsAreLatched : Obligations.StackFaultsAreLatched := by
  intro s a nnn hpc
  have hfetched : s.pc - 2#16 = a := by rw [hpc, BitVec.add_sub_cancel]
  refine ⟨fun hsp => ⟨_, exec_call_full nnn hsp, ?_⟩, fun hsp => ⟨_, exec_ret_empty hsp, ?_⟩⟩
  · rw [State.raise_eq, hfetched]; rfl
  · rw [State.raise_eq, hfetched]; rfl

/-- Settles O29: the return reads the slot that the call has written. -/
theorem callThenReturnComesBack : Obligations.CallThenReturnComesBack := by
  intro s nnn hsp
  have hpushed : s.sp + 1#6 ≠ 0#6 := ne_empty_of_pos (by bv_omega)
  have hpopped : s.sp + 1#6 - 1#6 = s.sp := BitVec.add_sub_cancel s.sp 1#6
  have hread : (s.mem.writeWord (slotAddr s.sp) s.pc).readWord (slotAddr s.sp) = s.pc := Memory.readWord_writeWord ..
  refine ⟨_, _, exec_call_room nnn (ne_full_of_lt hsp), exec_ret_stacked hpushed, ?_, hpopped,
    fun a ha => s.mem.read_writeWord_outside _ _ a ha, ?_⟩
  · simp only [hpopped, hread]
  · simp only [hpopped, hread]

/-! ## Keys and timers -/

theorem keyPressed_iff (keys : BitVec 16) (v : Byte) :
    keyPressed keys v = true ↔ v.toNat ≤ 15 ∧ keys.getLsbD v.toNat = true := by
  simp [keyPressed]

/-- A key skip writes PC and the two fields of the `keys` input only. -/
theorem State.skipIf_takeKeys_eq (s : State) (c : Bool) :
    s.takeKeys.skipIf c = { s with
      pc := (s.takeKeys.skipIf c).pc, keysIn := s.takeKeys.keysIn, keysCount := s.takeKeys.keysCount } := by
  rw [State.skipIf_eq, State.takeKeys_eq]

/-- Settles O42: one sample of the keys, supplied or free, then a skip on it. -/
theorem keySkipResults : Obligations.KeySkipResults := by
  intro s x
  have hpressed (keys : BitVec 16) : (s.takeKeys.skipIf (keyPressed keys (s.getV x))).pc =
      if (s.getV x).toNat ≤ 15 ∧ keys.getLsbD (s.getV x).toNat = true then s.pc + 2#16 else s.pc := by
    simp only [State.skipIf_pc, State.takeKeys_pc, keyPressed_iff]
  have hreleased (keys : BitVec 16) : (s.takeKeys.skipIf (!keyPressed keys (s.getV x))).pc =
      if (s.getV x).toNat ≤ 15 ∧ keys.getLsbD (s.getV x).toNat = true then s.pc else s.pc + 2#16 := by
    simp only [State.skipIf_pc, State.takeKeys_pc, Bool.not_eq_true', ← Bool.not_eq_true, ite_not, keyPressed_iff]
  refine ⟨_, _, rfl, rfl, fun keys rest h => ?_, fun h => ?_, fun a => ?_, ?_, fun a => ?_, ?_⟩
  · obtain ⟨hnow, htake⟩ := s.sample_supplied keys rest h
    have hin : s.takeKeys.keysIn = rest ∧ s.takeKeys.keysCount = s.keysCount := by simp [htake]
    rw [hnow, hpressed, hreleased]
    simp only [State.skipIf_keysIn, State.skipIf_keysCount, hin, and_self]
  · obtain ⟨hnow, htake⟩ := s.sample_free h
    have hin : s.takeKeys.keysIn = [] ∧ s.takeKeys.keysCount = s.keysCount + 1 := by simp [htake, h]
    rw [hnow, hpressed, hreleased]
    simp only [State.skipIf_keysIn, State.skipIf_keysCount, hin, and_self]
  · rw [State.skipIf_mem, State.takeKeys_mem]
  · simpa only [State.skipIf_keysIn, State.skipIf_keysCount] using s.skipIf_takeKeys_eq _
  · rw [State.skipIf_mem, State.takeKeys_mem]
  · simpa only [State.skipIf_keysIn, State.skipIf_keysCount] using s.skipIf_takeKeys_eq _

/-- Settles O43. -/
theorem timerTransferResults : Obligations.TimerTransferResults := by
  intro s x
  exact ⟨⟨_, rfl, getV_setV_same s x s.dt, onlyV_setV s x s.dt⟩, ⟨_, rfl, rfl, fun _ => rfl, rfl⟩,
    ⟨_, rfl, rfl, fun _ => rfl, rfl⟩⟩

/-- Settles O45. -/
theorem waitForKeyCompletes : Obligations.WaitForKeyCompletes := by
  intro s x
  exact ⟨_, rfl, rfl, fun _ => rfl, rfl⟩

/-! ## Unrecognized words and the `video` output -/

/-- The event of an unrecognized word fetched from `a` (R68, R197). -/
theorem State.unrecognized_eq {s : State} {a : Word} (hpc : s.pc = a + 2#16) (ins : Instr) :
    s.unrecognized ins = { s with events := .diag a (encode ins) :: s.events } := by
  have hfetched : s.fetchedFrom = a := by rw [State.fetchedFrom, hpc, BitVec.add_sub_cancel]
  rw [State.unrecognized, hfetched]
  rfl

/-- Settles O46. -/
theorem unrecognizedWordsOnlyEmitADiagnostic : Obligations.UnrecognizedWordsOnlyEmitADiagnostic := by
  intro s a low hpc
  have hevent (ins : Instr) := congrArg (@Host.Outcome.next State Fault Refusal) (s.unrecognized_eq hpc ins)
  exact ⟨hevent (.reserved5 low), hevent (.reserved8 low), hevent (.reserved9 low), hevent (.reservedE low),
    hevent (.reservedF low)⟩

/-- Settles O41. -/
theorem videoOutputHoldsThePixels : Obligations.VideoOutputHoldsThePixels := by
  intro s
  refine ⟨Memory.readBytes_length .., fun px py hx hy => ⟨s.mem.read (pixelAddr px py), ?_, rfl⟩⟩
  have hbyte : (s.mem.readBytes 0xF00 256)[8 * py + px / 8]? = some (s.mem.read (0xF00 + (8 * py + px / 8))) :=
    Memory.readBytes_getElem? s.mem 0xF00 256 _ (by omega)
  rwa [← Nat.add_assoc] at hbyte

end Sys2Proof.Machine
end

section
/-! The rules over all instructions (R12 to R19, R22, R24, R48, R190): a table of the parts of the state that each instruction may
write, held to `exec` once; which instructions write a part is read off the table, and only those are looked at again. -/
namespace Sys2Proof.Machine

/-! ## The parts of the state and who writes them -/

/-- The parts of the state that instructions write. -/
inductive Part where
  | mem | v | i | pc | sp | dt | st | wait | latch | keys | rnd | events

/-- Part by part, what it means that `t` has it as `s` has. -/
def Part.Same (s t : State) : Part → Prop
  | .mem => t.mem = s.mem
  | .v => t.v = s.v
  | .i => t.i = s.i
  | .pc => t.pc = s.pc
  | .sp => t.sp = s.sp
  | .dt => t.dt = s.dt
  | .st => t.st = s.st
  | .wait => t.wait = s.wait ∧ t.waitReg = s.waitReg
  | .latch => t.faultReport = s.faultReport
  | .keys => t.keysIn = s.keysIn ∧ t.keysCount = s.keysCount
  | .rnd => t.rndIn = s.rndIn ∧ t.rndCount = s.rndCount
  | .events => t.events = s.events

/-- `s` with one part taken over from `t`. -/
def Part.copy (t s : State) : Part → State
  | .mem => { s with mem := t.mem }
  | .v => { s with v := t.v }
  | .i => { s with i := t.i }
  | .pc => { s with pc := t.pc }
  | .sp => { s with sp := t.sp }
  | .dt => { s with dt := t.dt }
  | .st => { s with st := t.st }
  | .wait => { s with wait := t.wait, waitReg := t.waitReg }
  | .latch => { s with fault := t.fault, faultCause := t.faultCause, faultPc := t.faultPc, faultOpcode := t.faultOpcode,
                       faultAddr := t.faultAddr }
  | .keys => { s with keysIn := t.keysIn, keysCount := t.keysCount }
  | .rnd => { s with rndIn := t.rndIn, rndCount := t.rndCount }
  | .events => { s with events := t.events }

/-- At most the parts `ps` have changed from `s` to `t`. -/
def Frame (ps : List Part) (s t : State) : Prop := t = ps.foldl (Part.copy t) s

/-- The parts that an instruction may write, beyond the fetch advance. -/
def partsWritten : Instr → List Part
  | .cls => [.mem]
  | .ret => [.latch, .sp, .pc]
  | .call _ => [.latch, .mem, .sp, .pc]
  | .sys _ | .jp _ | .jpV0 _ | .seImm _ _ | .sneImm _ _ | .seReg _ _ | .sneReg _ _ => [.pc]
  | .ldImm _ _ | .addImm _ _ | .ldReg _ _ | .orReg _ _ | .andReg _ _ | .xorReg _ _ | .addReg _ _ | .subReg _ _ | .shr _ _
  | .subnReg _ _ | .shl _ _ | .ldVxDt _ => [.v]
  | .rnd _ _ => [.rnd, .v]
  | .ldI _ | .addI _ | .ldF _ => [.i]
  | .drw _ _ _ => [.latch, .mem, .v]
  | .skp _ | .sknp _ => [.keys, .pc]
  | .ldVxK _ => [.wait]
  | .ldDtVx _ => [.dt]
  | .ldStVx _ => [.st]
  | .ldB _ | .storeRegs _ => [.latch, .mem]
  | .loadRegs _ => [.latch, .v]
  | .reserved5 _ | .reserved8 _ | .reserved9 _ | .reservedE _ | .reservedF _ => [.events]

theorem Part.same_refl (p : Part) (s : State) : p.Same s s := by
  cases p <;> simp [Part.Same]

theorem Part.Same.trans {p : Part} {s t u : State} (h : p.Same s t) (h' : p.Same t u) : p.Same s u := by
  cases p <;> simp_all [Part.Same]

theorem Part.same_copy {p q : Part} (t s : State) (h : p ≠ q) : p.Same s (q.copy t s) := by
  cases q <;> cases p <;> simp [Part.Same, Part.copy, State.faultReport] at h ⊢

/-- A part that is not in the frame is as it was. -/
theorem Frame.same {ps : List Part} {s t : State} (h : Frame ps s t) {p : Part} (hp : p ∉ ps) : p.Same s t := by
  have hfold (u : State) : p.Same u (ps.foldl (Part.copy t) u) := by
    clear h
    induction ps generalizing u with
    | nil => exact p.same_refl u
    | cons q ps ih =>
      obtain ⟨hq, hps⟩ : p ≠ q ∧ p ∉ ps := by simpa using hp
      exact (Part.same_copy t u hq).trans (ih hps (q.copy t u))
  rw [h]
  exact hfold s

/-! ## The table holds -/

theorem frame_skipIf (s : State) (c : Bool) : Frame [.pc] s (s.skipIf c) := by
  cases c <;> rfl

theorem frame_takeKeys_skipIf (s : State) (c : Bool) : Frame [.keys, .pc] s (s.takeKeys.skipIf c) := by
  unfold State.takeKeys
  split <;> cases c <;> rfl

theorem frame_takeRnd_setV (s : State) (x : Reg) (b : Byte) : Frame [.rnd, .v] s (s.takeRnd.setV x b) := by
  unfold State.takeRnd
  split <;> rfl

/-- `DXYN` is its draw under the bounds check (R161). -/
theorem exec_drw (x y : Reg) (n : Nibble) (s : State) :
    exec (.drw x y n) s = .next (s.withinData (.drw x y n) n.toNat (s.drawn x y n)) := rfl

theorem foldl_copy_self (t : State) (ps : List Part) : ps.foldl (Part.copy t) t = t := by
  induction ps with
  | nil => rfl
  | cons p ps ih =>
    have hself : p.copy t t = t := by cases p <;> rfl
    rw [List.foldl_cons, hself, ih]

/-- A fault taken writes the latch alone (R192). -/
theorem Frame.raise (ps : List Part) (s : State) (c : Cause) (ins : Instr) : Frame (.latch :: ps) s (s.raise c ins) := by
  have hlatch : Part.copy (s.raise c ins) s .latch = s.raise c ins := rfl
  rw [Frame, List.foldl_cons, hlatch, foldl_copy_self]

/-- An access under the bounds check writes what the access writes, or the latch. -/
theorem Frame.withinData {ps : List Part} {s done : State} {ins : Instr} {n : Nat} (h : Frame (.latch :: ps) s done) :
    Frame (.latch :: ps) s (s.withinData ins n done) := by
  unfold State.withinData
  split
  case isTrue => exact Frame.raise ps s _ ins
  case isFalse => exact h

/-- A store through `I` writes memory beside the latch. -/
theorem frame_mem (s : State) (m : Memory) : Frame [.latch, .mem] s { s with mem := m } := rfl

/-- A load through `I` writes registers beside the latch. -/
theorem frame_v (s : State) (v : Vector Byte 16) : Frame [.latch, .v] s { s with v := v } := rfl

/-- An instruction writes at most the parts that the table gives it. -/
theorem exec_frame {ins : Instr} {s t : State} (h : exec ins s = .next t) : Frame (partsWritten ins) s t := by
  cases ins
  case drw x y n =>
    rw [← next_unique (exec_drw x y n s) h]
    exact Frame.withinData (s.drawn_eq x y n)
  all_goals cases h
  case ldB | storeRegs => exact Frame.withinData (frame_mem s _)
  case loadRegs => exact Frame.withinData (frame_v s _)
  case ret | call =>
    split
    · exact Frame.raise _ s _ _
    · rfl
  case seImm | sneImm | seReg | sneReg => exact frame_skipIf s _
  case skp | sknp => exact frame_takeKeys_skipIf s _
  case rnd x kk => exact frame_takeRnd_setV s x _
  all_goals rfl

/-- What has changed is a part that the table gives to the instruction. -/
theorem exec_changed {ins : Instr} {s t : State} (h : exec ins s = .next t) (p : Part) (hne : ¬p.Same s t) :
    p ∈ partsWritten ins :=
  by_contra fun hp => hne ((exec_frame h).same hp)

/-! ## Read off the table -/

section Writers
variable {ins : Instr}

theorem writers_of_sp : .sp ∈ partsWritten ins → ins = .ret ∨ ∃ nnn, ins = .call nnn := by
  cases ins <;> simp [partsWritten]

theorem writers_of_i : .i ∈ partsWritten ins → (∃ nnn, ins = .ldI nnn) ∨ ∃ x, ins = .addI x ∨ ins = .ldF x := by
  cases ins <;> simp [partsWritten]

theorem writers_of_dt : .dt ∈ partsWritten ins → ∃ x, ins = .ldDtVx x := by
  cases ins <;> simp [partsWritten]

theorem writers_of_st : .st ∈ partsWritten ins → ∃ x, ins = .ldStVx x := by
  cases ins <;> simp [partsWritten]

theorem writers_of_wait : .wait ∈ partsWritten ins → ∃ x, ins = .ldVxK x := by
  cases ins <;> simp [partsWritten]

theorem writers_of_pc : .pc ∈ partsWritten ins →
    ins = .ret ∨ (∃ nnn, ins = .sys nnn ∨ ins = .jp nnn ∨ ins = .call nnn ∨ ins = .jpV0 nnn) ∨
    (∃ x kk, ins = .seImm x kk ∨ ins = .sneImm x kk) ∨ (∃ x y, ins = .seReg x y ∨ ins = .sneReg x y) ∨
    ∃ x, ins = .skp x ∨ ins = .sknp x := by
  cases ins <;> simp [partsWritten]

theorem writers_of_latch : .latch ∈ partsWritten ins →
    ins = .ret ∨ (∃ nnn, ins = .call nnn) ∨ (∃ x, ins = .ldB x) ∨ (∃ x, ins = .storeRegs x ∨ ins = .loadRegs x) ∨
    ∃ x y n, ins = .drw x y n := by
  cases ins <;> simp [partsWritten]

theorem writers_of_mem : .mem ∈ partsWritten ins →
    ins = .cls ∨ (∃ nnn, ins = .call nnn) ∨ (∃ x y n, ins = .drw x y n) ∨ (∃ x, ins = .ldB x) ∨
    ∃ x, ins = .storeRegs x := by
  cases ins <;> simp [partsWritten]

theorem writers_of_v : .v ∈ partsWritten ins →
    (∃ x y, ins = .addReg x y ∨ ins = .subReg x y ∨ ins = .subnReg x y ∨ ins = .shr x y ∨ ins = .shl x y) ∨
    (∃ x y n, ins = .drw x y n) ∨ (∃ x, ins = .loadRegs x) ∨
    (∃ x kk, ins = .ldImm x kk ∨ ins = .addImm x kk ∨ ins = .rnd x kk) ∨
    (∃ x y, ins = .ldReg x y ∨ ins = .orReg x y ∨ ins = .andReg x y ∨ ins = .xorReg x y) ∨ ∃ x, ins = .ldVxDt x := by
  cases ins <;> simp [partsWritten]

theorem writers_of_keys : .keys ∈ partsWritten ins → ∃ x, ins = .skp x ∨ ins = .sknp x := by
  cases ins <;> simp [partsWritten]

theorem writers_of_rnd : .rnd ∈ partsWritten ins → ∃ x kk, ins = .rnd x kk := by
  cases ins <;> simp [partsWritten]

end Writers

/-- Settles O50. -/
theorem specialRegistersHaveTheirOnlyWriters : Obligations.SpecialRegistersHaveTheirOnlyWriters := by
  intro ins s t h
  refine ⟨fun hne => writers_of_sp (exec_changed h .sp hne), fun hne => writers_of_i (exec_changed h .i hne),
    fun hne => writers_of_dt (exec_changed h .dt hne), fun hne => writers_of_st (exec_changed h .st hne),
    fun hne => writers_of_wait (exec_changed h .wait ?_), fun hne => writers_of_pc (exec_changed h .pc hne)⟩
  exact not_and_or.2 hne

/-! ## Faults -/

/-- An access under the bounds check latches a fault only out of bounds (R47). -/
theorem withinData_fault {s done : State} {ins : Instr} {n : Nat} (h : (s.withinData ins n done).fault = true)
    (hdone : done.fault = false) : 0 < n ∧ 0xFFF < s.i.toNat + (n - 1) := by
  by_contra hin
  rw [State.withinData, if_neg hin, hdone] at h
  exact Bool.false_ne_true h

/-- Settles O48: of the instructions that may write the latch, call and return do so on a full and an empty stack, the others out
of bounds. -/
theorem onlyTheListedConditionsRaiseFaults : Obligations.OnlyTheListedConditionsRaiseFaults := by
  intro ins s t h hs ht
  have hchanged : ¬Part.latch.Same s t := fun hsame => by
    have hfault : t.fault = s.fault := congrArg Prod.fst hsame
    simp [hs, ht] at hfault
  rcases writers_of_latch (exec_changed h .latch hchanged) with rfl | ⟨nnn, rfl⟩ | ⟨x, rfl⟩ | ⟨x, hins⟩ | ⟨x, y, n, rfl⟩
  · refine .inl ⟨rfl, by_contra fun hsp => ?_⟩
    rw [← next_unique (exec_ret_stacked hsp) h] at ht
    simp [hs] at ht
  · refine .inr (.inl ⟨nnn, rfl, by_contra fun hsp => ?_⟩)
    rw [← next_unique (exec_call_room nnn hsp) h] at ht
    simp [hs] at ht
  · cases h
    exact .inr (.inr (.inl ⟨x, rfl, (withinData_fault ht hs).2⟩))
  · refine .inr (.inr (.inr (.inl ⟨x, hins, ?_⟩)))
    rcases hins with rfl | rfl
    · cases h
      exact (withinData_fault ht hs).2
    · cases h
      exact (withinData_fault ht ((State.loadUpTo_fault ..).trans hs)).2
  · rw [← next_unique (exec_drw x y n s) h] at ht
    obtain ⟨hn, hout⟩ := withinData_fault ht hs
    exact .inr (.inr (.inr (.inr ⟨x, y, n, rfl, hn, by omega⟩)))

/-! ## Memory -/

/-- A byte that has changed is not outside. -/
theorem SameBytesOutside.inside {base n a : Nat} {s t : State} (h : SameBytesOutside base n s t)
    (hne : t.mem.read a ≠ s.mem.read a) : base ≤ a ∧ a < base + n := by
  by_contra hout
  exact hne (h a (by omega))

/-- An access under the bounds check changes no byte that the access leaves alone. -/
theorem SameBytesOutside.withinData {base k n : Nat} {s done : State} {ins : Instr} (h : SameBytesOutside base k s done) :
    SameBytesOutside base k s (s.withinData ins n done) := by
  unfold State.withinData
  split
  case isTrue => exact fun _ _ => rfl
  case isFalse => exact h

/-- A call changes at most the two bytes of slot `SP` (R103). -/
theorem exec_call_sameBytesOutside {s t : State} {nnn : Lit12} (h : exec (.call nnn) s = .next t) :
    SameBytesOutside (slotAddr s.sp) 2 s t := by
  by_cases hsp : s.sp = 48#6
  · rw [← next_unique (exec_call_full nnn hsp) h]
    exact fun _ _ => rfl
  · rw [← next_unique (exec_call_room nnn hsp) h]
    exact fun a ha => s.mem.read_writeWord_outside _ _ a ha

/-- Settles O49: the bytes outside the ones listed for each of the five writers of memory. -/
theorem onlyStoringInstructionsChangeMemory : Obligations.OnlyStoringInstructionsChangeMemory := by
  intro ins s t a h hne
  have hchanged : ¬Part.mem.Same s t := fun hsame => hne (congrArg (Memory.read · a) hsame)
  rcases writers_of_mem (exec_changed h .mem hchanged) with rfl | ⟨nnn, rfl⟩ | ⟨x, y, n, rfl⟩ | ⟨x, rfl⟩ | ⟨x, rfl⟩
  · cases h
    have hout : SameBytesOutside 0xF00 256 s { s with mem := s.mem.restore 0xF00 256 } :=
      fun b hb => s.mem.read_restore_outside 0xF00 256 b hb
    have hin := hout.inside hne
    exact .inl ⟨rfl, by omega⟩
  · have hin := (exec_call_sameBytesOutside h).inside hne
    exact .inr (.inl ⟨nnn, rfl, by omega⟩)
  · rw [← next_unique (exec_drw x y n s) h] at hne
    have hin := (s.drawn_sameBytesOutside x y n).withinData.inside hne
    exact .inr (.inr (.inl ⟨x, y, n, rfl, by omega⟩))
  · cases h
    have hout : SameBytesOutside s.i.toNat 3 s { s with mem := s.mem.writeBytes s.i.toNat (bcdDigits (s.getV x)) } :=
      fun b hb => s.mem.read_writeBytes_outside _ _ b hb
    have hin := hout.withinData.inside hne
    exact .inr (.inr (.inr (.inl ⟨x, rfl, by omega⟩)))
  · cases h
    have hout : SameBytesOutside s.i.toNat (x.val + 1) s { s with mem := s.mem.writeBytes s.i.toNat (s.regsUpTo x) } :=
      fun b hb => s.mem.read_writeBytes_outside _ _ b (by rwa [State.regsUpTo_length])
    have hin := hout.withinData.inside hne
    exact .inr (.inr (.inr (.inr ⟨x, rfl, by omega⟩)))

/-! ## `VF` -/

/-- A register write that changes a register names it. -/
theorem eq_of_getV_setV_ne {s u : State} {x r : Reg} {b : Byte} (hu : u.v = s.v)
    (hne : (u.setV x b).getV r ≠ s.getV r) : x = r := by
  by_contra hx
  rw [State.getV_setV, if_neg (Ne.symm hx), State.getV, State.getV, hu] at hne
  exact hne rfl

/-- A block load that changes a register names it or one above it. -/
theorem le_of_getV_loadUpTo_ne {s : State} {ins : Instr} {n a : Nat} {x r : Reg}
    (hne : (s.withinData ins n (s.loadUpTo x a)).getV r ≠ s.getV r) : r ≤ x := by
  by_contra hx
  unfold State.withinData at hne
  split at hne
  · exact hne rfl
  · rw [State.getV_loadUpTo, if_neg hx] at hne
    exact hne rfl

/-- Settles O51: the writers of registers that name one of them as `x` write that one alone. -/
theorem vfHasItsOnlyWriters : Obligations.VfHasItsOnlyWriters := by
  intro ins s t h hne
  have hchanged : ¬Part.v.Same s t := fun hsame => hne (congrArg (fun v : Vector Byte 16 => v[(15 : Reg)]) hsame)
  rcases writers_of_v (exec_changed h .v hchanged) with hflag | hdraw | ⟨x, rfl⟩ | ⟨x, kk, hins⟩ | ⟨x, y, hins⟩ | ⟨x, rfl⟩
  · exact .inl hflag
  · exact .inr (.inl hdraw)
  · cases h
    obtain rfl : x = 15 := Fin.last_le_iff.1 (le_of_getV_loadUpTo_ne hne)
    exact .inr (.inr (.inl rfl))
  · obtain rfl : x = 15 := by
      rcases hins with rfl | rfl | rfl
      · cases h; exact eq_of_getV_setV_ne rfl hne
      · cases h; exact eq_of_getV_setV_ne rfl hne
      · cases h; exact eq_of_getV_setV_ne s.takeRnd_v hne
    exact .inr (.inr (.inr (.inl ⟨kk, hins⟩)))
  · obtain rfl : x = 15 := by
      rcases hins with rfl | rfl | rfl | rfl
      all_goals cases h; exact eq_of_getV_setV_ne rfl hne
    exact .inr (.inr (.inr (.inr (.inl ⟨y, hins⟩))))
  · cases h
    obtain rfl : x = 15 := eq_of_getV_setV_ne rfl hne
    exact .inr (.inr (.inr (.inr (.inr rfl))))

/-! ## The inputs -/

/-- The state with other samples and draws waiting on its inputs. -/
def State.withInputs (s : State) (keys : List (BitVec 16)) (draws : List Byte) : State :=
  { s with keysIn := keys, rndIn := draws }

section Inputs
variable {ins : Instr} {s t : State} (keys : List (BitVec 16)) (draws : List Byte)

theorem withInputs_ite (c : Prop) [Decidable c] (a b : State) :
    (if c then a else b).withInputs keys draws = if c then a.withInputs keys draws else b.withInputs keys draws :=
  apply_ite (fun u : State => u.withInputs keys draws) c a b

/-- An instruction that samples neither input does the same whatever waits on them. -/
theorem exec_withInputs (hkeys : .keys ∉ partsWritten ins) (hrnd : .rnd ∉ partsWritten ins) (h : exec ins s = .next t) :
    exec ins (s.withInputs keys draws) = .next (t.withInputs keys draws) := by
  cases ins
  all_goals cases h
  case skp | sknp => simp [partsWritten] at hkeys
  case rnd => simp [partsWritten] at hrnd
  case ret | call => rw [withInputs_ite]; rfl
  case seImm | sneImm | seReg | sneReg => rw [State.skipIf, withInputs_ite]; rfl
  case ldB | storeRegs | loadRegs | drw => rw [State.withinData, withInputs_ite]; rfl
  all_goals rfl

theorem takeRnd_withKeys (s : State) : State.takeRnd { s with keysIn := keys } = { s.takeRnd with keysIn := keys } := by
  simp only [State.takeRnd]; split <;> rfl

theorem takeKeys_withDraws (s : State) : State.takeKeys { s with rndIn := draws } = { s.takeKeys with rndIn := draws } := by
  simp only [State.takeKeys]; split <;> rfl

theorem skipIf_withDraws (s : State) (c : Bool) :
    State.skipIf { s with rndIn := draws } c = { s.skipIf c with rndIn := draws } := by
  cases c <;> rfl

/-- An instruction that does not sample the keys does the same whatever samples wait. -/
theorem exec_withKeys (hkeys : .keys ∉ partsWritten ins) (h : exec ins s = .next t) :
    exec ins { s with keysIn := keys } = .next { t with keysIn := keys } := by
  by_cases hrnd : .rnd ∈ partsWritten ins
  · obtain ⟨x, kk, rfl⟩ := writers_of_rnd hrnd
    cases h
    simp only [exec, execRnd, takeRnd_withKeys]
    rfl
  · obtain ⟨hin, -⟩ : Part.rnd.Same s t := (exec_frame h).same hrnd
    have ht : { t with keysIn := keys } = t.withInputs keys s.rndIn := by rw [State.withInputs, ← hin]
    rw [ht]
    exact exec_withInputs keys s.rndIn hkeys hrnd h

/-- An instruction that does not draw does the same whatever draws wait. -/
theorem exec_withDraws (hrnd : .rnd ∉ partsWritten ins) (h : exec ins s = .next t) :
    exec ins { s with rndIn := draws } = .next { t with rndIn := draws } := by
  by_cases hkeys : .keys ∈ partsWritten ins
  · obtain ⟨x, rfl | rfl⟩ := writers_of_keys hkeys
    · cases h
      simp only [exec, execSkp, takeKeys_withDraws, skipIf_withDraws]
      rfl
    · cases h
      simp only [exec, execSknp, takeKeys_withDraws, skipIf_withDraws]
      rfl
  · obtain ⟨hin, -⟩ : Part.keys.Same s t := (exec_frame h).same hkeys
    have ht : { t with rndIn := draws } = t.withInputs s.keysIn draws := by rw [State.withInputs, ← hin]
    rw [ht]
    exact exec_withInputs s.keysIn draws hkeys hrnd h

end Inputs

/-- Settles O52: an instruction that is not one of the named ones does not sample the input. -/
theorem inputsMatterOnlyWhereSampled : Obligations.InputsMatterOnlyWhereSampled := by
  intro ins s t keys draws h
  refine ⟨fun hne => exec_withKeys keys (fun hkeys => ?_) h, fun hne => exec_withDraws draws (fun hrnd => ?_) h⟩
  · obtain ⟨x, hins⟩ := writers_of_keys hkeys
    exact hins.elim (hne x).1 (hne x).2
  · obtain ⟨x, kk, hins⟩ := writers_of_rnd hrnd
    exact hne x kk hins

end Sys2Proof.Machine
end
